-- ==== Sys2Proof/Word.lean ====
section
/-! DEFINITION. The one word of this hardware: the byte (00_scope.md R8, `CELL_W = 8`, unsigned). -/

namespace Sys2Proof

/-- A tape cell, a program byte, an input byte or an output byte: 8 bits, unsigned (R8). -/
abbrev Byte := BitVec 8

end Sys2Proof
end

