-- ==== Sys2Proof/Config.lean ====
section
/-! DEFINITION. The build parameters of 00_scope.md R5, R6 and R9, and the model's free values. -/

namespace Sys2Proof

/-- What is fixed when the block is built (R5, R6, R9): "parameters, not registers" (10_state.md R25).
A statement about every state is a statement about every build, since State carries these (log 3). -/
structure Config where
  /-- `TAPE_CAP`, the number of tape cells (R5). -/
  tapeCap : Nat
  /-- `PROG_MAX`, the number of bytes the program memory holds (R6). -/
  progMax : Nat
  /-- `EOT_IS_EOF`: whether an input byte 0x04 is end of input (R9). -/
  eotIsEof : Bool
  deriving DecidableEq, Repr

/-- A build that exists: both capacities are positive (R5 "every `TAPE_CAP >= 1`", R6 "a positive integer";
R52: another one is a build-time failure and never a run). -/
abbrev Config.valid (c : Config) : Prop := 1 ≤ c.tapeCap ∧ 1 ≤ c.progMax

/-- The build of State.reset (log 3): `TAPE_CAP` is the default of R5; `PROG_MAX` and `EOT_IS_EOF` are open
in the spec. DESIGN CHOICE: 65535, and false, the value 95_test_vectors.md assumes unless it says otherwise. -/
def Config.standard : Config := { tapeCap := 30000, progMax := 65535, eotIsEof := false }

/-- FREE VALUE (log 5): what program byte `i` holds when the host has not written it since power-up
(20_memory.md R49 "unspecified values", 93_implementation_defined.md U13 "any value"). It has no body. -/
opaque Config.unwrittenProgByte : Nat → Byte

/-- FREE VALUE (log 21): what a reading of `out_data` shows while `out_valid` is 0, for which the spec gives no value
(20_memory.md R45 gives one "exactly while `phase = WAIT_OUT`"). One index for each reading; it has no body. -/
opaque Config.idleOutData : Nat → Byte

end Sys2Proof
end

