-- ==== Sys2Proof/Machine/State.lean ====
section
/-! DEFINITION. The machine's state as plain data (10_state.md R13 to R29), the reasons a step can stop, and the state
after reset. -/

namespace Sys2Proof.Machine

/-- `run_state` (10_state.md R22). The value 0b11 is never held, so it has no constructor. -/
inductive RunState where
  /-- 0b00: the block executes steps -/
  | running
  /-- 0b01: the run ended normally -/
  | halted
  /-- 0b10: the run stopped on a fault of 60_exceptions.md R91 -/
  | fault
  deriving DecidableEq, Repr

/-- `fault_cause` (10_state.md R23). The values 5 to 7 are never written, so they have no constructor. -/
inductive FaultCause where
  /-- 0 NONE -/
  | noFault
  /-- 1 UNMATCHED_OPEN -/
  | unmatchedOpen
  /-- 2 UNMATCHED_CLOSE -/
  | unmatchedClose
  /-- 3 IN_ERROR -/
  | inError
  /-- 4 OUT_ERROR -/
  | outError
  deriving DecidableEq, Repr

/-- `phase` (10_state.md R26): where within one instruction a multi-cycle build is. -/
inductive Phase where
  /-- EXEC: about to check for halt and fetch; at every step boundary of R60 -/
  | exec
  /-- SCAN_FWD -/
  | scanFwd
  /-- SCAN_BWD -/
  | scanBwd
  /-- WAIT_IN -/
  | waitIn
  /-- WAIT_OUT -/
  | waitOut
  deriving DecidableEq, Repr

/-- The response of an input transfer (20_memory.md R43, R44). -/
inductive InResp where
  | byte (b : Byte)
  | eof
  | err
  deriving DecidableEq, Repr

/-- The response of an output transfer (20_memory.md R45). -/
inductive OutResp where
  | ok
  | err
  deriving DecidableEq, Repr

/-- One event of the trace (20_memory.md R50): `In(r)` or `Out(v, o)`. -/
inductive Event where
  | inp (r : InResp)
  | out (v : Byte) (o : OutResp)
  deriving DecidableEq, Repr

/-- A byte memory: its written cells by rising address (the canonical form is `Memory.wf`, Machine/Ops.lean). -/
abbrev Memory := List Host.Cell

/-- The architectural state of 10_state.md R13, the build parameters it runs under (log 3), and the host's side of the
streams as plain data (log 1). A register's width depends on a parameter and is not observable (00_scope.md R7), so the
registers are natural numbers, whose ranges `MachineInv` (Safety.lean) states (log 11). -/
structure State where
  /-- The build parameters (00_scope.md R5, R6, R9); no step changes them. -/
  cfg : Config
  /-- `prog`, the program memory (R15). -/
  prog : Memory
  /-- `plen`, the program length (R16). -/
  plen : Nat
  /-- `tape`, the data memory (R17). -/
  tape : Memory
  /-- `dp`, the data pointer (R18). -/
  dp : Nat
  /-- `ip`, the instruction pointer (R20). -/
  ip : Nat
  /-- `run_state` (R22). -/
  runState : RunState
  /-- `fault_cause` (R23). -/
  faultCause : FaultCause
  /-- `phase` (R26), hidden. -/
  phase : Phase
  /-- `sj`, the scanner's index (R27), hidden. -/
  sj : Nat
  /-- `depth`, the scanner's nesting counter (R27), hidden. -/
  depth : Nat
  /-- `obuf`, the byte an output transfer presents (R28), hidden. -/
  obuf : Byte
  /-- The host's: responses ready for the next input transfers, oldest first (20_memory.md R43, log 1). -/
  inQ : List InResp
  /-- The host's: responses ready for the next output transfers, oldest first (20_memory.md R45, log 1). -/
  outQ : List OutResp
  /-- The run's event trace, oldest first (20_memory.md R50). -/
  trace : List Event
  deriving DecidableEq, Repr

/-- Where the model stops. The block's own faults (60_exceptions.md R91) are no such stop: they are next states. -/
inductive Fault where
  /-- Raised by an access to tape index `addr` when `addr >= TAPE_CAP`: there is no such cell (20_memory.md R34).
  Safe: it needs `dp >= TAPE_CAP`, a value that is never held (10_state.md R18, log 7). -/
  | tapeOutOfRange (addr : Nat)
  deriving DecidableEq, Repr

/-- Where the model gives no meaning. -/
inductive Refusal where
  /-- Raised by an arm of `exec` that has no meaning yet; no arm is such. Safe. -/
  | notModelled (mnemonic : String)
  deriving DecidableEq, Repr

/-- What a meaning answers. -/
abbrev Res := Host.Outcome State Fault Refusal

/-- The state after reset (10_state.md R29) of the build `Config.standard` with no program loaded: reset does not
change `prog` and `plen` (70_reset_and_hazards.md R107), whose values before any load are unspecified (R30). DESIGN
CHOICE: `plen` is 0 (log 4), nothing of `prog` is written (log 5), and the host has answered nothing (log 1). -/
def State.reset : State where
  cfg := Config.standard
  prog := []
  plen := 0
  tape := []
  dp := 0
  ip := 0
  runState := .running
  faultCause := .noFault
  phase := .exec
  sj := 0
  depth := 0
  obuf := 0
  inQ := []
  outQ := []
  trace := []

end Sys2Proof.Machine
end

