-- ==== Sys2Proof/Machine/Ops.lean ====
section
/-! DEFINITION. The shared operations: byte memories in canonical form, the program and tape spaces (20_memory.md), the
trailing increment (30_encoding.md R62), fault entry (60_exceptions.md R93), reset (70_reset_and_hazards.md R106), and
the register widths (00_scope.md R7). -/

namespace Sys2Proof.Machine

/-! ### Byte memories -/

/-- The written value at address `a`, if any. -/
def Memory.find (a : Nat) : Memory → Option Byte
  | [] => none
  | c :: m => if c.1 = a then some c.2 else Memory.find a m

/-- The memory with `v` listed at `a`, its place kept by rising address. -/
def Memory.insert (a : Nat) (v : Byte) : Memory → Memory
  | [] => [(a, v)]
  | c :: m =>
    if a < c.1 then (a, v) :: c :: m
    else if a = c.1 then (a, v) :: m
    else c :: Memory.insert a v m

/-- The memory with nothing listed at `a`. -/
def Memory.erase (a : Nat) : Memory → Memory
  | [] => []
  | c :: m => if c.1 = a then Memory.erase a m else c :: Memory.erase a m

/-- A write: `blank` is what an unlisted address reads as, and no entry of the result at `a` equals it. -/
def Memory.write (blank : Option Byte) (a : Nat) (v : Byte) (m : Memory) : Memory :=
  if some v = blank then m.erase a else m.insert a v

/-- Addresses strictly rise, the first of them at least `lo`. -/
def Memory.risesFrom : Nat → Memory → Bool
  | _, [] => true
  | lo, c :: m => decide (lo ≤ c.1) && Memory.risesFrom (c.1 + 1) m

/-- The canonical form: addresses strictly rise and lie below `bound`, and no entry equals what an unlisted address
reads as. -/
def Memory.wf (bound : Nat) (blank : Option Byte) (m : Memory) : Bool :=
  m.risesFrom 0 && m.all fun c => decide (c.1 < bound) && decide (some c.2 ≠ blank)

/-- An unlisted tape cell reads as 0, its reset value (10_state.md R17, R29). -/
def tapeBlank : Option Byte := some 0

/-- An unlisted program byte has no written value (10_state.md R30, log 5). -/
def progBlank : Option Byte := none

/-- `MemRead(a, 1)` of 20_memory.md R34 on the cells of a tape, for `a < TAPE_CAP`. -/
def tapeByte (m : Memory) (a : Nat) : Byte := (m.find a).getD 0

/-- `ProgRead(i)` of 20_memory.md R32 on the bytes of a program memory; a byte never written is a free value (log 5). -/
def progByte (m : Memory) (i : Nat) : Byte := (m.find i).getD (Config.unwrittenProgByte i)

/-- `MemWrite(a, 1, v)` of 20_memory.md R34. -/
def tapeWrite (m : Memory) (a : Nat) (v : Byte) : Memory := m.write tapeBlank a v

/-- `prog[i] <- v`, done by the load port only (20_memory.md R33, R47). -/
def progWrite (m : Memory) (i : Nat) (v : Byte) : Memory := m.write progBlank i v

/-- The byte of tape cell `a`. -/
def State.cell (s : State) (a : Nat) : Byte := tapeByte s.tape a

/-- The byte of program index `i`. -/
def State.code (s : State) (i : Nat) : Byte := progByte s.prog i

/-- The bytes at the instruction pointer: every instruction is one byte (30_encoding.md R53). -/
def State.fetchBytes (s : State) : List Byte := [s.code s.ip]

/-! ### The end of an instruction -/

/-- The trailing `ip <- ip + 1` of 30_encoding.md R62, for every instruction that does not fault. -/
def advance (s : State) : State := { s with ip := s.ip + 1 }

/-- `raise Fault(cause)`, 60_exceptions.md R93: `run_state`, `fault_cause` and `phase` are written, everything else,
`ip` included, is kept; nothing is saved and there is no handler. R94: there is no return from it but reset. -/
def raiseFault (c : FaultCause) (s : State) : State :=
  { s with runState := .fault, faultCause := c, phase := .exec }

/-- The halt of 30_encoding.md R61: "sets `run_state <- HALTED` and changes nothing else". -/
def halt (s : State) : State := { s with runState := .halted }

/-! ### Reset -/

/-- 70_reset_and_hazards.md R106, and R107: `prog` and `plen` are kept. A new run has recorded no event yet (log 14),
and the host's pending answers are the host's (20_memory.md R49). -/
def hwReset (s : State) : State :=
  { s with
    tape := [], dp := 0, ip := 0, runState := .running, faultCause := .noFault,
    phase := .exec, sj := 0, depth := 0, obuf := 0, trace := [] }

/-! ### The streams' events -/

/-- Appends one event to the trace (20_memory.md R50). -/
def record (e : Event) (s : State) : State := { s with trace := s.trace ++ [e] }

/-- The byte an `Out(v, o)` event put on the output stream: every one counts, also one answered `Err`
(42_io.md R71 "the byte counts as emitted"). -/
def Event.emitted : Event → Option Byte
  | .inp _ => none
  | .out v _ => some v

/-- The output stream the host sees: "the list of `v` of the `Out` events in order" (20_memory.md R50). -/
def State.outputStream (s : State) : List Byte := s.trace.filterMap Event.emitted

/-! ### Encodings of the status registers, as the host sees them (20_memory.md R48) -/

/-- 10_state.md R22. -/
def RunState.bits : RunState → BitVec 2
  | .running => 0b00
  | .halted => 0b01
  | .fault => 0b10

/-- 10_state.md R23. -/
def FaultCause.bits : FaultCause → BitVec 3
  | .noFault => 0
  | .unmatchedOpen => 1
  | .unmatchedClose => 2
  | .inError => 3
  | .outError => 4

/-! ### Register widths -/

/-- The least `w` with `n <= 2 ^ w`: the `ceil(log2(n))` of 00_scope.md R7, for `n >= 1`. -/
def clog2 (n : Nat) : Nat := if n ≤ 1 then 0 else Nat.log2 (n - 1) + 1

/-- `DP_W` of R7. -/
def dpWidth (c : Config) : Nat := max 1 (clog2 c.tapeCap)

/-- `IP_W` of R7, the width of `ip`, `plen` and `sj`. -/
def ipWidth (c : Config) : Nat := max 1 (clog2 (c.progMax + 1))

/-- `DEPTH_W` of R7. -/
def depthWidth (c : Config) : Nat := ipWidth c

end Sys2Proof.Machine
end

