-- ==== Sys2Proof/Machine/Operands.lean ====
section
/-! DEFINITION. The one operand of the data instructions: the current cell `acc = tape[dp]` (10_state.md R19). There are
no operand fields (30_encoding.md R54). -/

namespace Sys2Proof.Machine

/-- `v <- MemRead(dp, 1)`, then `k v` (20_memory.md R34); there is no cell at or above `TAPE_CAP` (log 7). -/
def withAcc (s : State) (k : Byte → Res) : Res :=
  if s.dp < s.cfg.tapeCap then k (s.cell s.dp) else .fault (.tapeOutOfRange s.dp)

/-- `MemWrite(dp, 1, v)`, then `k` on the state it leaves (20_memory.md R34, log 7). -/
def storeAcc (v : Byte) (s : State) (k : State → Res) : Res :=
  if s.dp < s.cfg.tapeCap then k { s with tape := tapeWrite s.tape s.dp v } else .fault (.tapeOutOfRange s.dp)

end Sys2Proof.Machine
end

