-- ==== Sys2Proof/Machine/CellAlu.lean ====
section
/-! DEFINITION. The byte ALU's arithmetic and the cell instructions CELL_INC and CELL_DEC (41_cell_alu.md R67 to R69). -/

namespace Sys2Proof.Machine

/-- `ALU_INC(v)`: `(v + 1) mod 256` (R67). -/
def aluInc (v : Byte) : Byte := BitVec.ofNat 8 ((v.toNat + 1) % 256)

/-- `ALU_DEC(v)`: `(v + 255) mod 256` (R67). -/
def aluDec (v : Byte) : Byte := BitVec.ofNat 8 ((v.toNat + 255) % 256)

/-- CELL_INC `+` (R68). -/
def execCellInc (s : State) : Res :=
  withAcc s fun v => storeAcc (aluInc v) s fun s' => .next (advance s')

/-- CELL_DEC `-` (R69). -/
def execCellDec (s : State) : Res :=
  withAcc s fun v => storeAcc (aluDec v) s fun s' => .next (advance s')

end Sys2Proof.Machine
end

