-- ==== Sys2Proof/Machine/Flags.lean ====
section
/-! DEFINITION. The block has no flags (10_state.md R21): the one condition an instruction tests is computed from the
cell when a bracket executes, and is stored nowhere. -/

namespace Sys2Proof.Machine

/-- `ALU_ZERO(v)` of 41_cell_alu.md R67. -/
def aluZero (v : Byte) : Bool := v == 0

end Sys2Proof.Machine
end

