-- ==== Sys2Proof/Syntax.lean ====
section
/-! DEFINITION. The instructions: one constructor per row of spec/opcode_table.json (30_encoding.md R55, R56). -/

namespace Sys2Proof

/-- The `Op` of 30_encoding.md R59. No instruction has an operand field (R54); `nop` carries the byte that
encodes it, since 248 bytes do (R56, log 20). -/
inductive Instr where
  /-- `>` PTR_INC (40_pointer.md R65) -/
  | ptrInc
  /-- `<` PTR_DEC (40_pointer.md R66) -/
  | ptrDec
  /-- `+` CELL_INC (41_cell_alu.md R68) -/
  | cellInc
  /-- `-` CELL_DEC (41_cell_alu.md R69) -/
  | cellDec
  /-- `.` OUT (42_io.md R71) -/
  | output
  /-- `,` IN (42_io.md R72) -/
  | input
  /-- `[` LOOP_OPEN (43_control_flow.md R78) -/
  | loopOpen
  /-- `]` LOOP_CLOSE (43_control_flow.md R79) -/
  | loopClose
  /-- any other byte, NOP (44_noop.md R89) -/
  | nop (byte : Byte)
  deriving DecidableEq, Repr

end Sys2Proof
end

