-- ==== Sys2Proof/WellFormed.lean ====
section
/-! DEFINITION. Which terms of `Instr` are instructions: a NOP's byte is none of the eight instruction bytes. -/

namespace Sys2Proof

/-- The eight instruction bytes, in the order of the table of 30_encoding.md R55. -/
def instructionBytes : List Byte := [0x2B, 0x2C, 0x2D, 0x2E, 0x3C, 0x3E, 0x5B, 0x5D]

/-- 30_encoding.md R56: NOP is "every byte value not in the table of rule R55"; the eight have no operands. -/
def wellFormed : Instr → Bool
  | .ptrInc => true
  | .ptrDec => true
  | .cellInc => true
  | .cellDec => true
  | .output => true
  | .input => true
  | .loopOpen => true
  | .loopClose => true
  | .nop b => !instructionBytes.contains b

end Sys2Proof
end

