-- ==== Sys2Proof/Decode.lean ====
section
/-! DEFINITION. The decoder of 30_encoding.md R59, total on any bytes, and the encoder beside it. -/

namespace Sys2Proof

/-- Why a list of bytes is no instruction. -/
inductive DecodeError where
  /-- There is no byte: every byte is an instruction (30_encoding.md R53, R56), so nothing else is refused. -/
  | noByte
  deriving DecidableEq, Repr

/-- `Decode : u8 -> Op` of 30_encoding.md R59: total, no illegal encoding (R56), and no state changes it (R57). -/
def decodeByte (b : Byte) : Instr :=
  if b = 0x3E then .ptrInc
  else if b = 0x3C then .ptrDec
  else if b = 0x2B then .cellInc
  else if b = 0x2D then .cellDec
  else if b = 0x2E then .output
  else if b = 0x2C then .input
  else if b = 0x5B then .loopOpen
  else if b = 0x5D then .loopClose
  else .nop b

/-- The instruction at the head of a list of bytes, and the rest: every instruction is one byte (R53). -/
def decode : List Byte → Except DecodeError (Instr × List Byte)
  | [] => .error .noByte
  | b :: rest => .ok (decodeByte b, rest)

/-- The byte of an instruction (30_encoding.md R55, R56). -/
def encodeByte : Instr → Byte
  | .ptrInc => 0x3E
  | .ptrDec => 0x3C
  | .cellInc => 0x2B
  | .cellDec => 0x2D
  | .output => 0x2E
  | .input => 0x2C
  | .loopOpen => 0x5B
  | .loopClose => 0x5D
  | .nop b => b

/-- The words of an instruction: one byte (R53). -/
def encode (i : Instr) : List Byte := [encodeByte i]

/-- The byte that an opcode-table row's bits stand for: bits 7..0, and those at or above `nbits` are 0. -/
def tableByte (nbits w : Nat) : Byte := BitVec.ofNat 8 (w % 2 ^ nbits)

/-- What the decoder reads from a table row's bits, laid out as the one byte an instruction has (R53). -/
def decodeTableWord (nbits w : Nat) : Option Instr :=
  match decode [tableByte nbits w] with
  | .ok (i, _) => some i
  | .error _ => none

end Sys2Proof
end

