-- ==== Sys2Proof/Machine/Scanner.lean ====
section
/-! DEFINITION. The bracket scanner: the scans of 43_control_flow.md R80 and R81, and the matching bracket of R77, which
is what they compute. -/

namespace Sys2Proof.Machine

/-- How a scan ends: the index it stops on (`none` is the spec's ⊥), and what it leaves in `sj` and `depth`, the only
state it changes (R80, log 8). -/
structure ScanEnd where
  found : Option Nat
  sj : Nat
  depth : Nat
  deriving DecidableEq, Repr

/-- The nesting counter after one byte of a forward scan (R80). -/
def fwdDepth (b : Byte) (depth : Nat) : Nat :=
  match decodeByte b with
  | .loopOpen => depth + 1
  | .loopClose => depth - 1
  | .ptrInc | .ptrDec | .cellInc | .cellDec | .output | .input | .nop _ => depth

/-- The nesting counter after one byte of a backward scan (R81). -/
def bwdDepth (b : Byte) (depth : Nat) : Nat :=
  match decodeByte b with
  | .loopClose => depth + 1
  | .loopOpen => depth - 1
  | .ptrInc | .ptrDec | .cellInc | .cellDec | .output | .input | .nop _ => depth

/-- The loop of R80 at index `j`, with `left` bytes of the program still to examine (`left = plen - j`). -/
def scanForward (p : Memory) : (left j depth : Nat) → ScanEnd
  | 0, j, depth => { found := none, sj := j, depth := depth }
  | left + 1, j, depth =>
    let d := fwdDepth (progByte p j) depth
    if d = 0 then { found := some j, sj := j, depth := 0 } else scanForward p left (j + 1) d

/-- The loop of R81 with `left` bytes still to examine, the next of them at index `left - 1`. -/
def scanBackward (p : Memory) : (left depth : Nat) → ScanEnd
  | 0, depth => { found := none, sj := 0, depth := depth }
  | j + 1, depth =>
    let d := bwdDepth (progByte p j) depth
    if d = 0 then { found := some j, sj := j, depth := 0 } else scanBackward p j d

/-- `ForwardScan(i)` of R80. -/
def forwardScan (s : State) (i : Nat) : ScanEnd := scanForward s.prog (s.plen - (i + 1)) (i + 1) 1

/-- `BackwardScan(i)` of R81; at `i = 0` it runs off the start at once, with `sj` not yet written (R85). -/
def backwardScan (s : State) (i : Nat) : ScanEnd :=
  if i = 0 then { found := none, sj := s.sj, depth := 1 } else scanBackward s.prog i 1

/-! ### The matching bracket (R77), counted and not scanned -/

/-- `opens(x, y)` of R77. -/
def opens (p : Memory) (x y : Nat) : Nat := (List.range' x (y - x)).countP fun j => progByte p j == 0x5B

/-- `closes(x, y)` of R77. -/
def closes (p : Memory) (x y : Nat) : Nat := (List.range' x (y - x)).countP fun j => progByte p j == 0x5D

/-- `1 + opens(i + 1, k + 1) - closes(i + 1, k + 1) = 0`, the condition of `MatchFwd` (R77). -/
abbrev closesAt (p : Memory) (i k : Nat) : Prop := 1 + opens p (i + 1) (k + 1) = closes p (i + 1) (k + 1)

/-- `1 + closes(k, i) - opens(k, i) = 0`, the condition of `MatchBwd` (R77). -/
abbrev opensAt (p : Memory) (i k : Nat) : Prop := 1 + closes p k i = opens p k i

/-- `MatchFwd(i) = k`: the least `k` with `i < k < plen` that closes the bracket at `i` (R77). -/
def isMatchFwd (p : Memory) (plen i k : Nat) : Prop :=
  i < k ∧ k < plen ∧ closesAt p i k ∧ ∀ j, i < j → j < k → ¬ closesAt p i j

/-- `MatchBwd(i) = k`: the greatest `k < i` that opens the bracket at `i` (R77). -/
def isMatchBwd (p : Memory) (i k : Nat) : Prop :=
  k < i ∧ opensAt p i k ∧ ∀ j, k < j → j < i → ¬ opensAt p i j

end Sys2Proof.Machine
end

