-- ==== Sys2Proof/Machine/ControlFlow.lean ====
section
/-! DEFINITION. The bracket instructions LOOP_OPEN and LOOP_CLOSE as atomic steps (43_control_flow.md R78, R79, R82, R83). -/

namespace Sys2Proof.Machine

/-- What a taken bracket does with its scan: `ip` lands ON the match and the trailing increment moves past it, or the
fault of R82 or R83 leaves `ip` at the bracket. -/
def takeBracket (e : ScanEnd) (c : FaultCause) (s : State) : State :=
  match e.found with
  | some k => advance { s with ip := k, sj := e.sj, depth := e.depth }
  | none => raiseFault c { s with sj := e.sj, depth := e.depth }

/-- LOOP_OPEN `[` (R78). -/
def execLoopOpen (s : State) : Res :=
  withAcc s fun v =>
    .next (if aluZero v then takeBracket (forwardScan s s.ip) .unmatchedOpen s else advance s)

/-- LOOP_CLOSE `]` (R79). -/
def execLoopClose (s : State) : Res :=
  withAcc s fun v =>
    .next (if aluZero v then advance s else takeBracket (backwardScan s s.ip) .unmatchedClose s)

end Sys2Proof.Machine
end

