-- ==== Sys2Proof/Machine/Io.lean ====
section
/-! DEFINITION. Output and input: OUT and IN as atomic steps (42_io.md R71 to R75). A step that performs a transfer is
taken only once the host has answered it; until then the block holds and no state changes (30_encoding.md R60, log 2). -/

namespace Sys2Proof.Machine

/-- `InValue(r)` of 42_io.md R73 and R74: the byte `,` stores; a failed transfer has none. -/
def inValue (c : Config) : InResp → Option Byte
  | .byte b => some (if c.eotIsEof && b == 0x04 then 0 else b)
  | .eof => some 0
  | .err => none

/-- `InRead()` answered `r` (20_memory.md R43): the event is recorded and the answer is used up. -/
def inTransfer (r : InResp) (s : State) : State := record (.inp r) { s with inQ := s.inQ.tail }

/-- `OutWrite(v)` answered `o` (20_memory.md R45): `obuf <- v`, the event is recorded and the answer is used up. -/
def outTransfer (v : Byte) (o : OutResp) (s : State) : State :=
  record (.out v o) { s with obuf := v, outQ := s.outQ.tail }

/-- After the last transfer of `.` or `,`: OUT_ERROR on a write failure, else the trailing increment (R71, R72). -/
def finishOutput (o : OutResp) (s : State) : State :=
  match o with
  | .ok => advance s
  | .err => raiseFault .outError s

/-- OUT `.` (R71). -/
def execOutput (s : State) : Res :=
  match s.outQ with
  | [] => .next s
  | o :: _ => withAcc s fun v => .next (finishOutput o (outTransfer v o s))

/-- IN `,` (R72): input transfer, store, echo (R75). -/
def execInput (s : State) : Res :=
  match s.inQ with
  | [] => .next s
  | r :: _ =>
    match inValue s.cfg r with
    | none => .next (raiseFault .inError (inTransfer r s))
    | some v =>
      match s.outQ with
      | [] => .next s
      | o :: _ => storeAcc v (inTransfer r s) fun s' => .next (finishOutput o (outTransfer v o s'))

end Sys2Proof.Machine
end

