-- ==== Sys2Proof/Machine/Nop.lean ====
section
/-! DEFINITION. The no-op (44_noop.md R89). -/

namespace Sys2Proof.Machine

/-- NOP (R89): nothing but the trailing increment, whatever its byte. -/
def execNop (_byte : Byte) (s : State) : Res := .next (advance s)

end Sys2Proof.Machine
end

