-- ==== Sys2Proof/Machine/Pointer.lean ====
section
/-! DEFINITION. Pointer movement: PTR_INC and PTR_DEC (40_pointer.md R65, R66). -/

namespace Sys2Proof.Machine

/-- The pointer one cell on: a compare with `TAPE_CAP - 1`, not a truncation to a width (R65). -/
def dpNext (c : Config) (dp : Nat) : Nat := if dp = c.tapeCap - 1 then 0 else dp + 1

/-- The pointer one cell back (R66); the value `TAPE_CAP` is never produced (90_conflicts.md C1). -/
def dpPrev (c : Config) (dp : Nat) : Nat := if dp = 0 then c.tapeCap - 1 else dp - 1

/-- PTR_INC `>` (R65). -/
def execPtrInc (s : State) : Res := .next (advance { s with dp := dpNext s.cfg s.dp })

/-- PTR_DEC `<` (R66). -/
def execPtrDec (s : State) : Res := .next (advance { s with dp := dpPrev s.cfg s.dp })

end Sys2Proof.Machine
end

