-- ==== Sys2Proof/Machine/Dispatch.lean ====
section
/-! DEFINITION. The dispatch of 30_encoding.md R62: one arm per instruction. -/

namespace Sys2Proof.Machine

/-- "perform the rule of op on the current state", the trailing increment included (30_encoding.md R62). -/
def exec (i : Instr) (s : State) : Host.Outcome State Fault Refusal :=
  match i with
  | .ptrInc => Sys2Proof.Machine.execPtrInc s
  | .ptrDec => Sys2Proof.Machine.execPtrDec s
  | .cellInc => Sys2Proof.Machine.execCellInc s
  | .cellDec => Sys2Proof.Machine.execCellDec s
  | .output => Sys2Proof.Machine.execOutput s
  | .input => Sys2Proof.Machine.execInput s
  | .loopOpen => Sys2Proof.Machine.execLoopOpen s
  | .loopClose => Sys2Proof.Machine.execLoopClose s
  | .nop b => Sys2Proof.Machine.execNop b s

end Sys2Proof.Machine
end

