-- ==== Sys2Proof/Machine/Loop.lean ====
section
/-! DEFINITION. The execution loop: the atomic step of 30_encoding.md R60 to R62, and the cycles of the multi-cycle build
(43_control_flow.md R85, 42_io.md R76), which also say how a state in the middle of an instruction goes on (log 10). -/

namespace Sys2Proof.Machine

/-! ### The cycles of the multi-cycle build -/

/-- One scan cycle in SCAN_FWD: one pass of the loop of R80 with `j = sj` (R85). -/
def scanFwdCycle (s : State) : State :=
  if s.plen ≤ s.sj then raiseFault .unmatchedOpen s
  else
    let d := fwdDepth (s.code s.sj) s.depth
    if d = 0 then advance { s with ip := s.sj, depth := 0, phase := .exec }
    else { s with depth := d, sj := s.sj + 1 }

/-- One scan cycle in SCAN_BWD: one pass of the loop of R81 with `j = sj` (R85). -/
def scanBwdCycle (s : State) : State :=
  let d := bwdDepth (s.code s.sj) s.depth
  if d = 0 then advance { s with ip := s.sj, depth := 0, phase := .exec }
  else if s.sj = 0 then raiseFault .unmatchedClose { s with depth := d }
  else { s with depth := d, sj := s.sj - 1 }

/-- The input transfer of `,` in WAIT_IN: unless it failed, the cell and `obuf` are written and the echo begins (R76). -/
def acceptInput (r : InResp) (s : State) : Res :=
  match inValue s.cfg r with
  | none => .next (raiseFault .inError (record (.inp r) s))
  | some v => storeAcc v (record (.inp r) s) fun s' => .next { s' with obuf := v, phase := .waitOut }

/-- The output transfer of `.` or of the echo in WAIT_OUT: `phase` returns to EXEC and the instruction ends (R76). -/
def acceptOutput (o : OutResp) (s : State) : State :=
  finishOutput o { record (.out s.obuf o) s with phase := .exec }

/-- A taken `[` begins its scan (R85). -/
def beginForward (s : State) : State := { s with depth := 1, sj := s.ip + 1, phase := .scanFwd }

/-- A taken `]` begins its scan, or at index 0 faults at once (R85). -/
def beginBackward (s : State) : State :=
  if s.ip = 0 then raiseFault .unmatchedClose { s with depth := 1 }
  else { s with depth := 1, sj := s.ip - 1, phase := .scanBwd }

/-- The cycle in EXEC: the halt check, or the fetch and what the instruction does in its first cycle (R85, R76); an
instruction of one cycle is the atomic one. -/
def beginCycle (s : State) : Res :=
  if s.plen ≤ s.ip then .next (halt s)
  else
    match decodeByte (s.code s.ip) with
    | .ptrInc => exec .ptrInc s
    | .ptrDec => exec .ptrDec s
    | .cellInc => exec .cellInc s
    | .cellDec => exec .cellDec s
    | .output => withAcc s fun v => .next { s with obuf := v, phase := .waitOut }
    | .input => .next { s with phase := .waitIn }
    | .loopOpen => withAcc s fun v => .next (if aluZero v then beginForward s else advance s)
    | .loopClose => withAcc s fun v => .next (if aluZero v then advance s else beginBackward s)
    | .nop b => exec (.nop b) s

/-- One cycle of a RUNNING block, given what the host's input and output sides offer at this edge; a wait that is offered
nothing changes nothing (R76). -/
def cycle (rin : Option InResp) (rout : Option OutResp) (s : State) : Res :=
  match s.phase with
  | .exec => beginCycle s
  | .scanFwd => .next (scanFwdCycle s)
  | .scanBwd => .next (scanBwdCycle s)
  | .waitIn => match rin with
    | none => .next s
    | some r => acceptInput r s
  | .waitOut => match rout with
    | none => .next s
    | some o => .next (acceptOutput o s)

/-! ### The atomic step -/

/-- The instruction at `ip`: `Decode(ProgRead(ip))` (30_encoding.md R62). -/
def fetch (s : State) : Instr := decodeByte (s.code s.ip)

/-- A step at a step boundary of a RUNNING block: the halt check (R61), or one whole instruction (R62). -/
def boundaryStep (s : State) : Res := if s.plen ≤ s.ip then .next (halt s) else exec (fetch s) s

/-- How a state in the middle of an instruction goes on: one cycle, answered from the host's queues. The atomic steps never
lead to such a state (R60 "`phase` is `EXEC` at every step boundary"); the clocked machine does (log 10). -/
def midStep (s : State) : Res :=
  match s.phase with
  | .exec => boundaryStep s
  | .scanFwd => cycle none none s
  | .scanBwd => cycle none none s
  | .waitIn => cycle s.inQ.head? none { s with inQ := s.inQ.tail }
  | .waitOut => cycle none s.outQ.head? { s with outQ := s.outQ.tail }

/-- One step. HALTED and FAULT are final: no step is taken in them and no state changes (10_state.md R24,
60_exceptions.md R94, 70_reset_and_hazards.md R118, log 9). -/
def stepOf (s : State) : Res :=
  match s.runState with
  | .running => midStep s
  | .halted => .next s
  | .fault => .next s

/-! ### Loading one instruction from outside -/

/-- The host ready to answer the transfers of one instruction, where it has no answer waiting (70_reset_and_hazards.md
R110 (3)). DESIGN CHOICE: it answers `Eof` and `Ok` (log 13). -/
def answerFor (i : Instr) (s : State) : State :=
  match i with
  | .input =>
    { s with
      inQ := if s.inQ.isEmpty then [.eof] else s.inQ
      outQ := if s.outQ.isEmpty then [.ok] else s.outQ }
  | .output => { s with outQ := if s.outQ.isEmpty then [.ok] else s.outQ }
  | .ptrInc | .ptrDec | .cellInc | .cellDec | .loopOpen | .loopClose | .nop _ => s

/-- `b` loaded as the instruction at `ip`, the program long enough to reach it, and the block at a step boundary. -/
def placeByte (b : Byte) (s : State) : State :=
  answerFor (decodeByte b)
    { s with
      prog := progWrite s.prog s.ip b
      plen := max s.plen (s.ip + 1)
      runState := .running
      faultCause := .noFault
      phase := .exec }

end Sys2Proof.Machine
end

