-- ==== Sys2Proof/Machine/Step.lean ====
section
/-! DEFINITION. The step (30_encoding.md R60) and the loading of one instruction where it is fetched. -/

namespace Sys2Proof.Machine

/-- One architectural step (30_encoding.md R60). -/
def step (s : State) : Host.Outcome State Fault Refusal := stepOf s

/-- `s` with a table row's bits loaded as the instruction at `ip`, so that the next step runs it (log 13). -/
def State.withFetchWord (s : State) (nbits w : Nat) : State := placeByte (tableByte nbits w) s

end Sys2Proof.Machine
end

