-- ==== Sys2Proof/Machine/Clock.lean ====
section
/-! DEFINITION. The block at its ports: one rising edge of `clk` (20_memory.md §5), with reset, the program load port, the
input and output ports and the status outputs. `step` needs none of it; 43_control_flow.md R86 relates the two. -/

namespace Sys2Proof.Machine

/-- The signals from the host, as sampled at one edge (20_memory.md R43, R45, R47, R48). `prog_addr` and `plen_wdata` are
`IP_W` bits wide; a wider value here is ignored as one above `PROG_MAX` is (log 11). -/
structure Pins where
  rst : Bool
  inValid : Bool
  inData : Byte
  inEof : Bool
  inErr : Bool
  outReady : Bool
  outErr : Bool
  progWe : Bool
  progAddr : Nat
  progWdata : Byte
  plenWe : Bool
  plenWdata : Nat
  deriving DecidableEq, Repr

/-- Nothing asserted. -/
def Pins.idle : Pins where
  rst := false
  inValid := false
  inData := 0
  inEof := false
  inErr := false
  outReady := false
  outErr := false
  progWe := false
  progAddr := 0
  progWdata := 0
  plenWe := false
  plenWdata := 0

/-- The signals to the host (20_memory.md R43, R45, R48). -/
structure OutPins where
  inReady : Bool
  outValid : Bool
  outData : Byte
  runState : BitVec 2
  faultCause : BitVec 3
  deriving DecidableEq, Repr

/-- `out_data`: `obuf` while WAIT_OUT (R45). In every other phase the spec gives it no value and no port shows `obuf`
(10_state.md R28); DESIGN CHOICE: it is then a free value of the reading (log 21). -/
def outData (reading : Nat) (s : State) : Byte := if s.phase = .waitOut then s.obuf else Config.idleOutData reading

/-- `in_ready` exactly while WAIT_IN (R43), `out_valid` with `out_data = obuf` exactly while WAIT_OUT (R45), and the status
registers at all times (R48). No port shows `tape`, `dp` or `ip` (R48). `reading` is the index of the free value that this
reading of the port takes (log 21). -/
def outputs (reading : Nat) (s : State) : OutPins where
  inReady := s.phase == .waitIn
  outValid := s.phase == .waitOut
  outData := outData reading s
  runState := s.runState.bits
  faultCause := s.faultCause.bits

/-- The response of an input transfer at this edge, by the priority of R44; none unless `in_valid`. -/
def Pins.inResponse (p : Pins) : Option InResp :=
  if p.inValid then some (if p.inErr then .err else if p.inEof then .eof else .byte p.inData) else none

/-- The response of an output transfer at this edge (R45); none unless `out_ready`. -/
def Pins.outResponse (p : Pins) : Option OutResp :=
  if p.outReady then some (if p.outErr then .err else .ok) else none

/-- The load port's write of one program byte (R47), where the port is accepted. -/
def loadByte (p : Pins) (s : State) : State :=
  if p.progWe && decide (p.progAddr < s.cfg.progMax) then { s with prog := progWrite s.prog p.progAddr p.progWdata } else s

/-- The load port's write of the program length (R47), where the port is accepted. -/
def loadLength (p : Pins) (s : State) : State :=
  if p.plenWe && decide (p.plenWdata ≤ s.cfg.progMax) then { s with plen := p.plenWdata } else s

/-- Both writes of the load port at one edge (R47). -/
def loadPort (p : Pins) (s : State) : State := loadLength p (loadByte p s)

/-- One rising edge. Reset comes before everything (70_reset_and_hazards.md R105, 60_exceptions.md R92) and the load port is
accepted under it; a RUNNING block takes a cycle and ignores the load port; a HALTED or FAULT block accepts it (R47). -/
def clockEdge (p : Pins) (s : State) : Res :=
  if p.rst then .next (loadPort p (hwReset s))
  else
    match s.runState with
    | .running => cycle p.inResponse p.outResponse s
    | .halted => .next (loadPort p s)
    | .fault => .next (loadPort p s)

/-- The edges of a list of sampled signals, in order. -/
def clockRun : List Pins → State → Res
  | [], s => .next s
  | p :: ps, s =>
    match clockEdge p s with
    | .next s' => clockRun ps s'
    | .fault r => .fault r
    | .refused r => .refused r

/-- Signals of a host that answers every input transfer with `r` and every output transfer with `o`. -/
def Pins.answering (r : InResp) (o : OutResp) : Pins :=
  { Pins.idle with
    inValid := true
    inData := match r with
      | .byte b => b
      | .eof => 0
      | .err => 0
    inEof := r == .eof
    inErr := r == .err
    outReady := true
    outErr := o == .err }

/-- Signals that write program byte `i`, with reset asserted. -/
def Pins.writeByte (i : Nat) (b : Byte) : Pins :=
  { Pins.idle with rst := true, progWe := true, progAddr := i, progWdata := b }

/-- Signals that write the program length, with reset asserted. -/
def Pins.writeLength (n : Nat) : Pins := { Pins.idle with rst := true, plenWe := true, plenWdata := n }

/-- The edges that write the bytes of a program from index `i` on. -/
def bootBytes : Nat → List Byte → List Pins
  | _, [] => []
  | i, b :: bs => Pins.writeByte i b :: bootBytes (i + 1) bs

/-- The boot of 70_reset_and_hazards.md R110: with reset asserted, every program byte and the length. -/
def bootEdges (bytes : List Byte) : List Pins := bootBytes 0 bytes ++ [Pins.writeLength bytes.length]

/-! ### Launch parameters -/

/-- The cells of a program from index `i` on. -/
def programCells : Nat → List Byte → Memory
  | _, [] => []
  | i, b :: bs => (i, b) :: programCells (i + 1) bs

/-- "A model starts from a reset state and takes the program bytes and `plen` as launch parameters" (10_state.md R30); so
are the build and the host's answers. -/
def launch (c : Config) (bytes : List Byte) (inQ : List InResp) (outQ : List OutResp) : State :=
  { State.reset with cfg := c, prog := programCells 0 bytes, plen := bytes.length, inQ := inQ, outQ := outQ }

end Sys2Proof.Machine
end

