-- ==== Sys2Proof/Safety.lean ====
section
/-! DEFINITION. What claims are stated in: the machine's invariant, repeated execution, and the parts of a state a
statement holds apart. -/

namespace Sys2Proof.Machine

/-- The hidden state fits its phase (10_state.md R26, R27; 43_control_flow.md R84, R85): a multi-cycle phase stands only in
a RUNNING block with an instruction at `ip`; a forward scan is at an index after the bracket, a backward scan before it, and
the nesting counter is positive and at most the number of bytes the scan has moved. -/
abbrev phaseFits (s : State) : Prop :=
  match s.phase with
  | .exec => True
  | .scanFwd => s.runState = .running ∧ s.ip < s.sj ∧ s.sj ≤ s.plen ∧ 1 ≤ s.depth ∧ s.depth ≤ s.sj - s.ip
  | .scanBwd => s.runState = .running ∧ s.sj < s.ip ∧ s.ip < s.plen ∧ 1 ≤ s.depth ∧ s.depth ≤ s.ip - s.sj
  | .waitIn => s.runState = .running ∧ s.ip < s.plen
  | .waitOut => s.runState = .running ∧ s.ip < s.plen

/-- The machine's invariant: a build that exists (R5, R6), every register in its range (R16, R18, R20, R27), `ip <= plen`
while the block runs (R63), both memories canonical and within their spaces (R15, R17), a cause exactly in FAULT (R23), and
the hidden state fitting its phase. -/
structure MachineInv (s : State) : Prop where
  cfg_valid : s.cfg.valid
  plen_le : s.plen ≤ s.cfg.progMax
  dp_lt : s.dp < s.cfg.tapeCap
  ip_le_plen : s.runState = .running → s.ip ≤ s.plen
  ip_le_max : s.ip ≤ s.cfg.progMax
  sj_le : s.sj ≤ s.cfg.progMax
  depth_le : s.depth ≤ s.cfg.progMax
  prog_wf : s.prog.wf s.cfg.progMax progBlank = true
  tape_wf : s.tape.wf s.cfg.tapeCap tapeBlank = true
  cause_iff : s.faultCause ≠ .noFault ↔ s.runState = .fault
  phase_fits : phaseFits s

/-- A step boundary of a RUNNING block with an instruction to execute (30_encoding.md R62). -/
structure Ready (s : State) : Prop where
  running : s.runState = .running
  boundary : s.phase = .exec
  in_program : s.ip < s.plen

/-- `n` steps, stopping at the first fault or refusal. -/
def steps : Nat → State → Res
  | 0, s => .next s
  | n + 1, s =>
    match step s with
    | .next s' => steps n s'
    | .fault r => .fault r
    | .refused r => .refused r

/-- One instruction executed `n` times in a row. -/
def execTimes (i : Instr) : Nat → State → Res
  | 0, s => .next s
  | n + 1, s =>
    match exec i s with
    | .next s' => execTimes i n s'
    | .fault r => .fault r
    | .refused r => .refused r

/-- A state with the host's pending answers replaced (20_memory.md R49: the streams are the host's). -/
def State.withHost (inQ : List InResp) (outQ : List OutResp) (s : State) : State := { s with inQ := inQ, outQ := outQ }

/-- A state with the scanner's and the output port's hidden registers replaced (10_state.md R27, R28). -/
def State.withHidden (sj depth : Nat) (obuf : Byte) (s : State) : State :=
  { s with sj := sj, depth := depth, obuf := obuf }

/-- The input responses among the events of a trace. -/
def Event.response : Event → Option InResp
  | .inp r => some r
  | .out _ _ => none

end Sys2Proof.Machine
end

