-- ==== Sys2Proof/Certificates/Slice0/Obligations.lean ====
section
/-! DEFINITION. The statements for the provers. Every build parameter, program, tape and host response is quantified over,
since State carries them. -/

open Sys2Proof Sys2Proof.Machine

/-! ### Encoding -/

/-- 30_encoding.md R59: the eight bytes, and NOP for every other. -/
def Obligations.DecoderFollowsTheOpcodeMap : Prop :=
  decodeByte 0x3E = .ptrInc ∧ decodeByte 0x3C = .ptrDec ∧ decodeByte 0x2B = .cellInc ∧ decodeByte 0x2D = .cellDec ∧
  decodeByte 0x2E = .output ∧ decodeByte 0x2C = .input ∧ decodeByte 0x5B = .loopOpen ∧ decodeByte 0x5D = .loopClose ∧
  ∀ b : Byte, b ∉ instructionBytes → decodeByte b = .nop b

/-- Sanity: words of each family, written out from the table of 30_encoding.md R55. -/
def Obligations.WrittenOutWordsDecode : Prop :=
  decode [0b00111110#8, 0x61] = .ok (.ptrInc, [0x61]) ∧ decode [0b00101101#8] = .ok (.cellDec, []) ∧
  decode [0b00101100#8] = .ok (.input, []) ∧ decode [0b01011011#8] = .ok (.loopOpen, []) ∧
  decode [0b00001010#8] = .ok (.nop 0x0A, []) ∧ decode [] = .error .noByte ∧
  decodeTableWord 8 0x5D = some .loopClose

/-- Decoding an encoded well-formed instruction gives it back, whatever follows it. -/
def Obligations.DecodingAnEncodedInstructionGivesItBack : Prop :=
  ∀ (i : Instr) (rest : List Byte), wellFormed i = true → decode (encode i ++ rest) = .ok (i, rest)

/-- 30_encoding.md R53, R56: every byte is exactly one instruction, well formed and encoded by that byte; 248 are NOPs. -/
def Obligations.EveryByteIsOneInstruction : Prop :=
  (∀ (b : Byte) (rest : List Byte), ∃ i, decode (b :: rest) = .ok (i, rest) ∧ wellFormed i = true ∧ encode i = [b]) ∧
  ((List.range 256).filter fun n => decodeByte (BitVec.ofNat 8 n) == .nop (BitVec.ofNat 8 n)).length = 248

/-! ### The execution loop -/

/-- 30_encoding.md R62: a step of a RUNNING block, at a step boundary and inside the program, is exec of the instruction
that the bytes at `ip` decode to; the loop adds nothing around exec. -/
def Obligations.StepRunsTheDecodedInstruction : Prop :=
  ∀ (s : State) (i : Instr) (rest : List Byte),
    Ready s → decode s.fetchBytes = .ok (i, rest) → wellFormed i = true → step s = exec i s

/-- 30_encoding.md R61: the halt check sets `run_state` and changes nothing else, before every fetch, the first included. -/
def Obligations.HaltCheckComesBeforeEveryFetch : Prop :=
  (∀ s : State, s.runState = .running → s.phase = .exec → s.plen ≤ s.ip →
    step s = .next { s with runState := .halted }) ∧
  (∀ s : State, s.plen = 0 → step (hwReset s) = .next { hwReset s with runState := .halted })

/-- 30_encoding.md R60, R62: an instruction holds for want of a host answer that it needs, faults where it stands, moves on
by one, or moves past the bracket that matches it, and it does the last exactly where its cell takes the bracket. Which
answers a `,` needs before it goes on is the model's reading of R60 (log 2). -/
def Obligations.InstructionHoldsFaultsOrAdvances : Prop :=
  ∀ (i : Instr) (s t : State), s.runState = .running → exec i s = .next t →
    (t = s ∧
      ((i = .output ∧ s.outQ = []) ∨
       (i = .input ∧ (s.inQ = [] ∨ (s.inQ.head? ≠ some .err ∧ s.outQ = []))))) ∨
    (t.runState = .fault ∧ t.ip = s.ip) ∨
    (t.runState = .running ∧ t.ip = s.ip + 1 ∧ (i = .loopOpen → s.cell s.dp ≠ 0) ∧ (i = .loopClose → s.cell s.dp = 0)) ∨
    (t.runState = .running ∧ ∃ k, t.ip = k + 1 ∧
      ((i = .loopOpen ∧ s.cell s.dp = 0 ∧ isMatchFwd s.prog s.plen s.ip k) ∨
       (i = .loopClose ∧ s.cell s.dp ≠ 0 ∧ isMatchBwd s.prog s.ip k)))

/-- 70_reset_and_hazards.md R117, 60_exceptions.md R90: every step of a state that meets the invariant answers a next
state; no arithmetic, pointer or decode event stops the model. In a stopped block and in the middle of an instruction the
next state is the model's choice (logs 9 and 10). -/
def Obligations.EveryStepCompletes : Prop :=
  ∀ s : State, MachineInv s → ∃ t, step s = .next t

/-! ### Pointer movement -/

/-- 40_pointer.md R65, with its frame: `dp` and `ip` alone change. -/
def Obligations.PtrIncMovesOneCellWithWraparound : Prop :=
  decodeByte 0x3E = .ptrInc ∧
  (∀ s : State, exec .ptrInc s =
    .next { s with dp := if s.dp = s.cfg.tapeCap - 1 then 0 else s.dp + 1, ip := s.ip + 1 }) ∧
  (∀ s : State, s.dp < s.cfg.tapeCap →
    exec .ptrInc s = .next { s with dp := (s.dp + 1) % s.cfg.tapeCap, ip := s.ip + 1 }) ∧
  (∀ s : State, s.dp < s.cfg.tapeCap →
    execTimes .ptrInc s.cfg.tapeCap s = .next { s with ip := s.ip + s.cfg.tapeCap })

/-- 40_pointer.md R66, with its frame: `dp` and `ip` alone change. -/
def Obligations.PtrDecMovesOneCellWithWraparound : Prop :=
  decodeByte 0x3C = .ptrDec ∧
  (∀ s : State, exec .ptrDec s =
    .next { s with dp := if s.dp = 0 then s.cfg.tapeCap - 1 else s.dp - 1, ip := s.ip + 1 }) ∧
  (∀ s : State, s.dp < s.cfg.tapeCap →
    exec .ptrDec s = .next { s with dp := (s.dp + s.cfg.tapeCap - 1) % s.cfg.tapeCap, ip := s.ip + 1 }) ∧
  (∀ s : State, s.dp < s.cfg.tapeCap →
    execTimes .ptrDec s.cfg.tapeCap s = .next { s with ip := s.ip + s.cfg.tapeCap })

/-! ### Cells -/

/-- 41_cell_alu.md R67. -/
def Obligations.ByteAluIsModulo256 : Prop :=
  ∀ v : Byte, (aluInc v).toNat = (v.toNat + 1) % 256 ∧ (aluDec v).toNat = (v.toNat + 255) % 256 ∧
    (v.toNat = 0 → (aluDec v).toNat = 255) ∧ (v.toNat ≠ 0 → (aluDec v).toNat = v.toNat - 1) ∧
    (aluZero v = true ↔ v.toNat = 0)

/-- 41_cell_alu.md R68, with its frame: the current cell and `ip` alone change; on a canonical tape 256 of them give the
state back but for `ip`. -/
def Obligations.CellIncAddsOneModulo256 : Prop :=
  decodeByte 0x2B = .cellInc ∧
  (∀ s : State, s.dp < s.cfg.tapeCap → ∃ t, exec .cellInc s = .next t ∧
    t = { s with tape := t.tape, ip := s.ip + 1 } ∧
    (t.cell s.dp).toNat = ((s.cell s.dp).toNat + 1) % 256 ∧ ∀ a, a ≠ s.dp → t.cell a = s.cell a) ∧
  (∀ s : State, s.dp < s.cfg.tapeCap → s.tape.wf s.cfg.tapeCap tapeBlank = true →
    execTimes .cellInc 256 s = .next { s with ip := s.ip + 256 })

/-- 41_cell_alu.md R69, with its frame: the current cell and `ip` alone change; on a canonical tape 256 of them give the
state back but for `ip`. -/
def Obligations.CellDecSubtractsOneModulo256 : Prop :=
  decodeByte 0x2D = .cellDec ∧
  (∀ s : State, s.dp < s.cfg.tapeCap → ∃ t, exec .cellDec s = .next t ∧
    t = { s with tape := t.tape, ip := s.ip + 1 } ∧
    (t.cell s.dp).toNat = ((s.cell s.dp).toNat + 255) % 256 ∧ ∀ a, a ≠ s.dp → t.cell a = s.cell a) ∧
  (∀ s : State, s.dp < s.cfg.tapeCap → s.tape.wf s.cfg.tapeCap tapeBlank = true →
    execTimes .cellDec 256 s = .next { s with ip := s.ip + 256 })

/-! ### Input and output -/

/-- 42_io.md R71, with its frame: the transfer's records and `ip`, or those and the fault registers, alone change, and of
the hidden state only `obuf` may. -/
def Obligations.OutEmitsTheCurrentCell : Prop :=
  decodeByte 0x2E = .output ∧
  (∀ (s : State) (q : List OutResp), s.dp < s.cfg.tapeCap → s.outQ = .ok :: q →
    ∃ t, exec .output s = .next t ∧
      t = { s with obuf := t.obuf, outQ := q, trace := s.trace ++ [.out (s.cell s.dp) .ok], ip := s.ip + 1 }) ∧
  (∀ (s : State) (q : List OutResp), s.dp < s.cfg.tapeCap → s.outQ = .err :: q →
    ∃ t, exec .output s = .next t ∧
      t = { s with
        obuf := t.obuf, outQ := q, trace := s.trace ++ [.out (s.cell s.dp) .err],
        runState := .fault, faultCause := .outError, phase := .exec })

/-- 42_io.md R72 to R75: a response `r` that is no failure stores `v`, 0 at end of input, and 0 for the byte 0x04 where
`EOT_IS_EOF`; the stored value is echoed after the store. With its frame: nothing else changes, and of the hidden state only
`obuf` may, where an echo is made. -/
def Obligations.InStoresThenEchoes : Prop :=
  decodeByte 0x2C = .input ∧
  (∀ (s : State) (r : InResp) (v : Byte) (qi : List InResp) (qo : List OutResp),
    s.dp < s.cfg.tapeCap → s.inQ = r :: qi → s.outQ = .ok :: qo →
    ((r = .eof ∧ v = 0) ∨
      ∃ b, r = .byte b ∧ v = if s.cfg.eotIsEof = true ∧ b = 0x04 then 0 else b) →
    ∃ t, exec .input s = .next t ∧
      t = { s with
        tape := t.tape, obuf := t.obuf, inQ := qi, outQ := qo, trace := s.trace ++ [.inp r, .out v .ok], ip := s.ip + 1 } ∧
      t.cell s.dp = v ∧ ∀ a, a ≠ s.dp → t.cell a = s.cell a) ∧
  (∀ (s : State) (r : InResp) (v : Byte) (qi : List InResp) (qo : List OutResp),
    s.dp < s.cfg.tapeCap → s.inQ = r :: qi → s.outQ = .err :: qo →
    ((r = .eof ∧ v = 0) ∨
      ∃ b, r = .byte b ∧ v = if s.cfg.eotIsEof = true ∧ b = 0x04 then 0 else b) →
    ∃ t, exec .input s = .next t ∧
      t = { s with
        tape := t.tape, obuf := t.obuf, inQ := qi, outQ := qo, trace := s.trace ++ [.inp r, .out v .err],
        runState := .fault, faultCause := .outError, phase := .exec } ∧
      t.cell s.dp = v ∧ ∀ a, a ≠ s.dp → t.cell a = s.cell a) ∧
  (∀ (s : State) (qi : List InResp), s.inQ = .err :: qi →
    exec .input s = .next
      { s with
        inQ := qi, trace := s.trace ++ [.inp .err],
        runState := .fault, faultCause := .inError, phase := .exec })

/-- 30_encoding.md R60, and the model's reading of it (log 2): until the host has given the response of every transfer the
instruction makes, the block holds and no state changes. -/
def Obligations.TransfersWaitForTheHost : Prop :=
  (∀ s : State, s.outQ = [] → exec .output s = .next s) ∧
  (∀ s : State, s.inQ = [] → exec .input s = .next s) ∧
  (∀ (s : State) (r : InResp) (q : List InResp), s.inQ = r :: q → r ≠ .err → s.outQ = [] → exec .input s = .next s)

/-- 20_memory.md R51: what each instruction adds to the trace and takes from the host's answers; a `,` or `.` that adds
nothing has held (the model's reading of the wait, log 2). -/
def Obligations.TraceRecordsEachTransfer : Prop :=
  ∀ (i : Instr) (s t : State), exec i s = .next t → ∃ es, t.trace = s.trace ++ es ∧
    s.inQ = es.filterMap Event.response ++ t.inQ ∧
    match i with
    | .input => (es = [] ∧ t = s) ∨ es = [.inp .err] ∨ ∃ r v o, r ≠ .err ∧ es = [.inp r, .out v o]
    | .output => (es = [] ∧ t = s) ∨ ∃ o, es = [.out (s.cell s.dp) o]
    | .ptrInc | .ptrDec | .cellInc | .cellDec | .loopOpen | .loopClose | .nop _ => es = []

/-! ### Control flow -/

/-- 43_control_flow.md R78 and R82, with their frame: the tape and `dp` never change, and of the hidden state only the
scan's registers may. -/
def Obligations.LoopOpenSkipsOnZero : Prop :=
  decodeByte 0x5B = .loopOpen ∧
  ∀ s : State, s.dp < s.cfg.tapeCap →
    (s.cell s.dp ≠ 0 → exec .loopOpen s = .next { s with ip := s.ip + 1 }) ∧
    (s.cell s.dp = 0 → ∀ k, isMatchFwd s.prog s.plen s.ip k → ∃ t, exec .loopOpen s = .next t ∧
      t = { s with ip := k + 1, sj := t.sj, depth := t.depth }) ∧
    (s.cell s.dp = 0 → (∀ k, ¬ isMatchFwd s.prog s.plen s.ip k) → ∃ t, exec .loopOpen s = .next t ∧
      t = { s with
        runState := .fault, faultCause := .unmatchedOpen, phase := .exec, sj := t.sj, depth := t.depth })

/-- 43_control_flow.md R79 and R83, with their frame: the tape and `dp` never change, and of the hidden state only the
scan's registers may. -/
def Obligations.LoopCloseJumpsBackOnNonzero : Prop :=
  decodeByte 0x5D = .loopClose ∧
  ∀ s : State, s.dp < s.cfg.tapeCap →
    (s.cell s.dp = 0 → exec .loopClose s = .next { s with ip := s.ip + 1 }) ∧
    (s.cell s.dp ≠ 0 → ∀ k, isMatchBwd s.prog s.ip k → ∃ t, exec .loopClose s = .next t ∧
      t = { s with ip := k + 1, sj := t.sj, depth := t.depth }) ∧
    (s.cell s.dp ≠ 0 → (∀ k, ¬ isMatchBwd s.prog s.ip k) → ∃ t, exec .loopClose s = .next t ∧
      t = { s with
        runState := .fault, faultCause := .unmatchedClose, phase := .exec, sj := t.sj, depth := t.depth })

/-- 43_control_flow.md R77: the scans compute the matching bracket, which the counts alone define; where a scan finds none
no index meets the count's condition, and a match is a bracket of the other kind, below `plen`. -/
def Obligations.ScansComputeTheMatchingBracket : Prop :=
  (∀ (s : State) (i k : Nat), (forwardScan s i).found = some k ↔ isMatchFwd s.prog s.plen i k) ∧
  (∀ (s : State) (i k : Nat), (backwardScan s i).found = some k ↔ isMatchBwd s.prog i k) ∧
  (∀ (s : State) (i : Nat), (forwardScan s i).found = none ↔ ∀ k, i < k → k < s.plen → ¬ closesAt s.prog i k) ∧
  (∀ (s : State) (i : Nat), (backwardScan s i).found = none ↔ ∀ k, k < i → ¬ opensAt s.prog i k) ∧
  (∀ (p : Memory) (n i k : Nat), isMatchFwd p n i k → progByte p k = 0x5D ∧ k < n) ∧
  (∀ (p : Memory) (i k : Nat), isMatchBwd p i k → progByte p k = 0x5B ∧ k < i)

/-- The two directions agree: `]` is the match of `[` exactly where `[` is the match of `]`. -/
def Obligations.BracketPartnersAgree : Prop :=
  ∀ (p : Memory) (n i k : Nat), k < n → progByte p i = 0x5B → progByte p k = 0x5D →
    (isMatchFwd p n i k ↔ isMatchBwd p k i)

/-- 43_control_flow.md R87: a loop whose brackets match runs its body while the cell is non-zero when tested. -/
def Obligations.LoopRunsItsBodyWhileCellIsNonzero : Prop :=
  (∀ (s : State) (k : Nat), Ready s → s.dp < s.cfg.tapeCap → s.code s.ip = 0x5B → isMatchFwd s.prog s.plen s.ip k →
    ∃ t, step s = .next t ∧ t.tape = s.tape ∧ t.dp = s.dp ∧ t.runState = .running ∧
      t.ip = if s.cell s.dp = 0 then k + 1 else s.ip + 1) ∧
  (∀ (s : State) (i : Nat), Ready s → s.dp < s.cfg.tapeCap → s.code i = 0x5B → s.code s.ip = 0x5D →
    isMatchFwd s.prog s.plen i s.ip →
    ∃ t, step s = .next t ∧ t.tape = s.tape ∧ t.dp = s.dp ∧ t.runState = .running ∧
      t.ip = if s.cell s.dp = 0 then s.ip + 1 else i + 1)

/-! ### No-op -/

/-- 44_noop.md R89, with its frame: `ip` alone changes; a scan's counter passes a NOP by; a program of NOPs alone runs
through and halts with the reset state but for `ip` and `run_state`. -/
def Obligations.NopOnlyAdvances : Prop :=
  (∀ b : Byte, b ∉ instructionBytes → decodeByte b = .nop b ∧ ∀ d, fwdDepth b d = d ∧ bwdDepth b d = d) ∧
  (∀ (b : Byte) (s : State), exec (.nop b) s = .next { s with ip := s.ip + 1 }) ∧
  (∀ (c : Config) (bytes : List Byte), (∀ b ∈ bytes, b ∉ instructionBytes) →
    steps (bytes.length + 1) (launch c bytes [] []) =
      .next { launch c bytes [] [] with ip := bytes.length, runState := .halted })

/-! ### Frames over all instructions -/

/-- The frame of the instructions that store to no cell: every cell reads as before, and only the named registers change. -/
def Obligations.FrameOfInstructionsThatStoreNothing : Prop :=
  ∀ (i : Instr) (s t : State), exec i s = .next t → i ≠ .cellInc → i ≠ .cellDec → i ≠ .input →
    t.tape = s.tape ∧ (∀ a, t.cell a = s.cell a) ∧ (∀ j, t.code j = s.code j) ∧
    t.plen = s.plen ∧ t.cfg = s.cfg ∧ t.inQ = s.inQ ∧
    (i ≠ .ptrInc → i ≠ .ptrDec → t.dp = s.dp) ∧
    (i ≠ .output → t.trace = s.trace ∧ t.obuf = s.obuf ∧ t.outQ = s.outQ) ∧
    (i ≠ .loopOpen → i ≠ .loopClose → t.sj = s.sj ∧ t.depth = s.depth) ∧
    (t.runState ≠ .fault → t.runState = s.runState ∧ t.faultCause = s.faultCause ∧ t.phase = s.phase)

/-- The frame of the instructions that store: the one cell stored to is the one at `dp`, which they do not move. -/
def Obligations.FrameOfInstructionsThatStore : Prop :=
  ∀ (i : Instr) (s t : State), exec i s = .next t → i = .cellInc ∨ i = .cellDec ∨ i = .input →
    (∀ a, a ≠ s.dp → t.cell a = s.cell a) ∧ t.dp = s.dp ∧ (∀ j, t.code j = s.code j) ∧
    t.plen = s.plen ∧ t.cfg = s.cfg ∧ t.sj = s.sj ∧ t.depth = s.depth ∧
    (i ≠ .input → t.trace = s.trace ∧ t.obuf = s.obuf ∧ t.inQ = s.inQ ∧ t.outQ = s.outQ) ∧
    (t.runState ≠ .fault → t.runState = s.runState ∧ t.faultCause = s.faultCause ∧ t.phase = s.phase)

/-- 10_state.md R17, 20_memory.md R31: what an instruction does depends on no cell but the current one. Two runs that
differ only in other cells go on alike, and keep those cells. -/
def Obligations.OnlyTheCurrentCellMatters : Prop :=
  ∀ (i : Instr) (s t : State) (m : Memory), tapeByte m s.dp = s.cell s.dp → exec i s = .next t →
    ∃ u, exec i { s with tape := m } = .next u ∧ u = { t with tape := u.tape } ∧ u.cell s.dp = t.cell s.dp ∧
      ∀ a, a ≠ s.dp → u.cell a = tapeByte m a ∧ t.cell a = s.cell a

/-- 10_state.md R27, R28: at a step boundary the scanner's registers and `obuf` are unobservable: changing them changes
nothing of the next state but themselves. -/
def Obligations.HiddenRegistersAreUnobservable : Prop :=
  ∀ (s t : State) (j d : Nat) (b : Byte), s.phase = .exec → step s = .next t →
    ∃ j' d' b', step (s.withHidden j d b) = .next (t.withHidden j' d' b')

/-- 20_memory.md R33: no instruction, no step and no clock edge of a RUNNING block out of reset changes the program. -/
def Obligations.ProgramIsReadOnlyWhileRunning : Prop :=
  (∀ (i : Instr) (s t : State), exec i s = .next t → t.prog = s.prog ∧ t.plen = s.plen ∧ t.cfg = s.cfg) ∧
  (∀ s t : State, step s = .next t → t.prog = s.prog ∧ t.plen = s.plen ∧ t.cfg = s.cfg) ∧
  (∀ (p : Pins) (s t : State), p.rst = false → s.runState = .running → clockEdge p s = .next t →
    t.prog = s.prog ∧ t.plen = s.plen ∧ t.cfg = s.cfg)

/-! ### Faults and stops -/

/-- 60_exceptions.md R91, R92: the four causes, their codes, who raises them and when; `ip` is the index recorded. -/
def Obligations.FaultCausesFollowTheTable : Prop :=
  (FaultCause.unmatchedOpen.bits = 1 ∧ FaultCause.unmatchedClose.bits = 2 ∧ FaultCause.inError.bits = 3 ∧
    FaultCause.outError.bits = 4) ∧
  ∀ (i : Instr) (s t : State), s.runState = .running → exec i s = .next t → t.runState = .fault →
    t.ip = s.ip ∧
    ((t.faultCause = .unmatchedOpen ∧ i = .loopOpen ∧ s.cell s.dp = 0 ∧ ∀ k, ¬ isMatchFwd s.prog s.plen s.ip k) ∨
     (t.faultCause = .unmatchedClose ∧ i = .loopClose ∧ s.cell s.dp ≠ 0 ∧ ∀ k, ¬ isMatchBwd s.prog s.ip k) ∨
     (t.faultCause = .inError ∧ i = .input ∧ s.inQ.head? = some .err) ∨
     (t.faultCause = .outError ∧ s.outQ.head? = some .err ∧
       (i = .output ∨ (i = .input ∧ s.inQ.head? ≠ some .err))))

/-- 60_exceptions.md R93: fault entry writes the fault registers and `phase`, keeps `ip`, `dp` and the program, keeps the
tape but for the cell of a `,` whose echo failed, which holds the value that `,` stored, and keeps the events recorded, the
failed transfer's included. -/
def Obligations.FaultEntryIsPrecise : Prop :=
  ∀ (i : Instr) (s t : State), s.runState = .running → exec i s = .next t → t.runState = .fault →
    t = { s with
      runState := .fault, faultCause := t.faultCause, phase := .exec, tape := t.tape, sj := t.sj, depth := t.depth,
      obuf := t.obuf, inQ := t.inQ, outQ := t.outQ, trace := t.trace } ∧
    t.faultCause ≠ .noFault ∧
    (∀ a, t.cell a ≠ s.cell a → i = .input ∧ t.faultCause = .outError ∧ a = s.dp) ∧
    (∃ es, t.trace = s.trace ++ es ∧
      (t.faultCause = .inError → es = [.inp .err]) ∧
      (t.faultCause = .outError →
        (i = .output ∧ es = [.out (s.cell s.dp) .err]) ∨
        (i = .input ∧ ∃ r v, inValue s.cfg r = some v ∧ es = [.inp r, .out v .err] ∧ t.cell s.dp = v)) ∧
      (t.faultCause = .unmatchedOpen ∨ t.faultCause = .unmatchedClose → es = []))

/-- 70_reset_and_hazards.md R118, 10_state.md R24, 60_exceptions.md R94: a stopped block takes no step, and at an edge out
of reset only the load port changes it; a block that waits and is offered nothing changes not at all. That `step` answers
the same state in a stopped block is the model's way of taking no step (log 9). -/
def Obligations.StoppedOrWaitingBlockKeepsItsState : Prop :=
  (∀ s : State, s.runState ≠ .running → step s = .next s) ∧
  (∀ (p : Pins) (s t : State), p.rst = false → s.runState ≠ .running → clockEdge p s = .next t →
    t = { s with prog := t.prog, plen := t.plen }) ∧
  (∀ (p : Pins) (s : State), p.rst = false → s.runState = .running → s.phase = .waitIn → p.inValid = false →
    clockEdge p s = .next s) ∧
  (∀ (p : Pins) (s : State), p.rst = false → s.runState = .running → s.phase = .waitOut → p.outReady = false →
    clockEdge p s = .next s)

/-- 10_state.md R24: the transitions of `run_state`, in the atomic steps and at the clock's edges; what an edge is in the
model's build, and that a stopped block's step answers the same state, are the model's choice (logs 9 and 16). -/
def Obligations.RunStateFollowsItsTransitions : Prop :=
  (∀ s t : State, s.runState = .running → s.phase = .exec → step s = .next t →
    (t.runState = .halted ↔ s.plen ≤ s.ip) ∧ (t.runState = .fault → t.faultCause ≠ .noFault)) ∧
  (∀ s t : State, s.runState ≠ .running → step s = .next t → t.runState = s.runState) ∧
  (∀ (p : Pins) (s t : State), p.rst = false → s.runState = .running → clockEdge p s = .next t →
    (t.runState = .halted ↔ s.phase = .exec ∧ s.plen ≤ s.ip)) ∧
  (∀ (p : Pins) (s t : State), p.rst = false → s.runState ≠ .running → clockEdge p s = .next t →
    t.runState = s.runState) ∧
  (∀ (p : Pins) (s t : State), p.rst = true → clockEdge p s = .next t → t.runState = .running)

/-! ### Reset, boot and the ports -/

/-- 70_reset_and_hazards.md R106, R107: what an edge with `rst` asserted leaves. -/
def Obligations.ResetSetsEveryRegister : Prop :=
  ∀ (p : Pins) (s : State), p.rst = true → ∃ t, clockEdge p s = .next t ∧
    (∀ a, t.cell a = 0) ∧ t.dp = 0 ∧ t.ip = 0 ∧ t.runState = .running ∧ t.faultCause = .noFault ∧ t.phase = .exec ∧
    t.sj = 0 ∧ t.depth = 0 ∧ t.obuf = 0 ∧
    (∀ reading, (outputs reading t).inReady = false ∧ (outputs reading t).outValid = false) ∧
    t.cfg = s.cfg ∧ (p.progWe = false → t.prog = s.prog) ∧ (p.plenWe = false → t.plen = s.plen)

/-- 10_state.md R29, 70_reset_and_hazards.md R108: the state after reset, in the registers the spec gives a value, and the
first step from it where the host has loaded a program; the value of `plen` in State.reset is the model's (log 4), and no
clause rests on it. -/
def Obligations.ExecutionStartsAtTheFirstByte : Prop :=
  (∀ a, State.reset.cell a = 0) ∧ State.reset.dp = 0 ∧ State.reset.ip = 0 ∧ State.reset.runState = .running ∧
  State.reset.faultCause = .noFault ∧ State.reset.phase = .exec ∧ State.reset.sj = 0 ∧ State.reset.depth = 0 ∧
  State.reset.obuf = 0 ∧
  ∀ s : State, 0 < s.plen → step (hwReset s) = exec (decodeByte (s.code 0)) (hwReset s)

/-- 70_reset_and_hazards.md R109: the state after a reset edge depends on nothing the aborted run had in progress. That it
does not depend on the aborted run's trace either, which the two states may hold differently, is the model's reading (log
14). -/
def Obligations.ResetAbortsAnyRun : Prop :=
  ∀ (p : Pins) (s u : State), p.rst = true → s.cfg = u.cfg → s.prog = u.prog → s.plen = u.plen → s.inQ = u.inQ →
    s.outQ = u.outQ → clockEdge p s = clockEdge p u

/-- 70_reset_and_hazards.md R111: after any number of steps, a reset and the same host answers give the same start again,
and so the same run; that the trace starts empty again is the model's reading (log 14). -/
def Obligations.RerunAfterResetIsRepeatable : Prop :=
  ∀ (n : Nat) (s t : State), steps n (hwReset s) = .next t →
    steps n (hwReset (t.withHost s.inQ s.outQ)) = .next t

/-- 20_memory.md R47: the load port's two writes, and when they have effect; that the condition is the one before the edge's
own effect is the model's reading (log 15). -/
def Obligations.LoadPortWritesOnlyWhenAccepted : Prop :=
  (∀ (p : Pins) (s : State), p.rst = true ∨ s.runState ≠ .running → ∃ t, clockEdge p s = .next t ∧
    (∀ i, t.code i =
      if p.progWe = true ∧ p.progAddr < s.cfg.progMax ∧ i = p.progAddr then p.progWdata else s.code i) ∧
    t.plen = if p.plenWe = true ∧ p.plenWdata ≤ s.cfg.progMax then p.plenWdata else s.plen) ∧
  (∀ (p : Pins) (s t : State), p.rst = false → s.runState = .running → clockEdge p s = .next t →
    t.prog = s.prog ∧ t.plen = s.plen)

/-- 70_reset_and_hazards.md R110: the host's boot, from any state, leaves the reset state with the program loaded; that
its trace is empty is the model's reading (log 14). -/
def Obligations.BootLoadsTheProgram : Prop :=
  ∀ (s : State) (bytes : List Byte), bytes.length ≤ s.cfg.progMax → ∃ t,
    clockRun (bootEdges bytes) s = .next t ∧ t.plen = bytes.length ∧
    (∀ (i : Nat) (h : i < bytes.length), t.code i = bytes[i]) ∧ (∀ i, bytes.length ≤ i → t.code i = s.code i) ∧
    t = { hwReset s with prog := t.prog, plen := t.plen }

/-- 20_memory.md R44: the response of an input transfer, by its priority. -/
def Obligations.InputResponsePriority : Prop :=
  ∀ p : Pins, p.inValid = true →
    (p.inErr = true → p.inResponse = some .err) ∧
    (p.inErr = false → p.inEof = true → p.inResponse = some .eof) ∧
    (p.inErr = false → p.inEof = false → p.inResponse = some (.byte p.inData))

/-- 20_memory.md R43, R45, R48, 10_state.md R22, R23: what the block's outputs show, whatever free value a reading of
`out_data` takes outside WAIT_OUT (log 21). -/
def Obligations.PortsShowPhaseAndStatus : Prop :=
  ∀ (reading : Nat) (s : State),
    ((outputs reading s).inReady = true ↔ s.phase = .waitIn) ∧ ((outputs reading s).outValid = true ↔ s.phase = .waitOut) ∧
    (s.phase = .waitOut → (outputs reading s).outData = s.obuf) ∧
    ((outputs reading s).runState = 0b00 ↔ s.runState = .running) ∧ ((outputs reading s).runState = 0b01 ↔ s.runState = .halted) ∧
    ((outputs reading s).runState = 0b10 ↔ s.runState = .fault) ∧ (outputs reading s).runState ≠ 0b11 ∧
    ((outputs reading s).faultCause = 0 ↔ s.faultCause = .noFault) ∧ (outputs reading s).faultCause < 5

/-! ### Invariants -/

/-- The state after reset meets the invariant; the build and the program length it has are the model's choice (logs 3, 4). -/
def Obligations.ResetStateMeetsTheInvariant : Prop := MachineInv State.reset

/-- A launched machine meets the invariant, and holds its program. -/
def Obligations.LaunchedMachineMeetsTheInvariant : Prop :=
  ∀ (c : Config) (bytes : List Byte) (qi : List InResp) (qo : List OutResp), c.valid → bytes.length ≤ c.progMax →
    MachineInv (launch c bytes qi qo) ∧ ∀ (i : Nat) (h : i < bytes.length), (launch c bytes qi qo).code i = bytes[i]

/-- Every step keeps the invariant (10_state.md R16, R18, R20, R22, R23; 30_encoding.md R63); how a state in the middle of an
instruction goes on is the model's choice (log 10). -/
def Obligations.StepKeepsTheInvariant : Prop :=
  ∀ s t : State, MachineInv s → step s = .next t → MachineInv t

/-- Every clock edge keeps the invariant, whatever the host's signals; what an edge does is the model's build (log 16). -/
def Obligations.ClockEdgeKeepsTheInvariant : Prop :=
  ∀ (p : Pins) (s t : State), MachineInv s → clockEdge p s = .next t → MachineInv t

/-- The atomic steps stay at step boundaries (30_encoding.md R60) and `ip` never exceeds `plen` (R63). -/
def Obligations.StepsStayAtBoundariesInsideTheProgram : Prop :=
  ∀ (n : Nat) (s t : State), s.phase = .exec → s.ip ≤ s.plen → steps n s = .next t → t.phase = .exec ∧ t.ip ≤ t.plen

/-- 00_scope.md R7, 43_control_flow.md R84: every register fits its width, the nesting counter of a scan in progress counts
at most to `plen`, and each width is the least, from 1 bit up, that tells the values of its register apart; that the
registers are natural numbers is the model's choice (log 11). -/
def Obligations.RegistersFitTheirWidths : Prop :=
  (∀ s : State, MachineInv s →
    s.dp < 2 ^ dpWidth s.cfg ∧ s.ip < 2 ^ ipWidth s.cfg ∧ s.plen < 2 ^ ipWidth s.cfg ∧ s.sj < 2 ^ ipWidth s.cfg ∧
    s.depth < 2 ^ depthWidth s.cfg ∧
    (s.phase = .scanFwd ∨ s.phase = .scanBwd → 1 ≤ s.depth ∧ s.depth ≤ s.plen)) ∧
  (∀ (c : Config) (w : Nat),
    (dpWidth c ≤ w ↔ 1 ≤ w ∧ c.tapeCap ≤ 2 ^ w) ∧ (ipWidth c ≤ w ↔ 1 ≤ w ∧ c.progMax + 1 ≤ 2 ^ w) ∧
    (depthWidth c ≤ w ↔ 1 ≤ w ∧ c.progMax + 1 ≤ 2 ^ w)) ∧
  ∀ n w : Nat, 1 ≤ n → (clog2 n ≤ w ↔ n ≤ 2 ^ w)

/-! ### The multi-cycle build -/

/-- 43_control_flow.md R86, 42_io.md R76: at every step boundary inside the program, the clocked build given the host's
answers reaches the next step boundary after at most `plen + 2` edges, first there, in the state of the atomic step, hidden
registers and trace included; the queues of answers, which the clocked build does not read, apart. The edges and their bound
are those of the model's build (log 16), the hidden registers' values the model's reading (log 8). -/
def Obligations.MultiCycleBuildRefinesTheAtomicStep : Prop :=
  ∀ (s : State) (r : InResp) (o : OutResp) (qi : List InResp) (qo : List OutResp),
    MachineInv s → Ready s → s.inQ = r :: qi → s.outQ = o :: qo →
    ∃ (n : Nat) (t u : State), 1 ≤ n ∧ n ≤ s.plen + 2 ∧ step s = .next t ∧
      clockRun (List.replicate n (Pins.answering r o)) s = .next u ∧ u.phase = .exec ∧
      t = u.withHost t.inQ t.outQ ∧
      ∀ m, 0 < m → m < n → ∃ v, clockRun (List.replicate m (Pins.answering r o)) s = .next v ∧ v.phase ≠ .exec

/-- 20_memory.md R45 "`OutWrite(v)` sets `obuf <- v`": an instruction that made output transfers leaves in `obuf` the byte
of the last, and one that made none leaves `obuf` alone. That the atomic step, at whose boundaries `obuf` is unobservable
(10_state.md R28), shows this value is the model's reading (log 8). -/
def Obligations.TransfersLeaveTheirByteInObuf : Prop :=
  ∀ (i : Instr) (s t : State) (es : List Event), exec i s = .next t → t.trace = s.trace ++ es →
    t.obuf = ((es.filterMap Event.emitted).getLast?).getD s.obuf
end

