-- ==== Sys2Proof/Laws/Decode.lean ====
section
/-! SUPPORT. The decoder read backwards: which byte an instruction comes from (30_encoding.md R59). -/

namespace Sys2Proof

theorem decodeByte_eq_ptrInc {b : Byte} : decodeByte b = .ptrInc ↔ b = 0x3E := by
  refine ⟨fun h => ?_, fun h => h ▸ rfl⟩
  unfold decodeByte at h
  split_ifs at h
  assumption

theorem decodeByte_eq_ptrDec {b : Byte} : decodeByte b = .ptrDec ↔ b = 0x3C := by
  refine ⟨fun h => ?_, fun h => h ▸ rfl⟩
  unfold decodeByte at h
  split_ifs at h
  assumption

theorem decodeByte_eq_cellInc {b : Byte} : decodeByte b = .cellInc ↔ b = 0x2B := by
  refine ⟨fun h => ?_, fun h => h ▸ rfl⟩
  unfold decodeByte at h
  split_ifs at h
  assumption

theorem decodeByte_eq_cellDec {b : Byte} : decodeByte b = .cellDec ↔ b = 0x2D := by
  refine ⟨fun h => ?_, fun h => h ▸ rfl⟩
  unfold decodeByte at h
  split_ifs at h
  assumption

theorem decodeByte_eq_output {b : Byte} : decodeByte b = .output ↔ b = 0x2E := by
  refine ⟨fun h => ?_, fun h => h ▸ rfl⟩
  unfold decodeByte at h
  split_ifs at h
  assumption

theorem decodeByte_eq_input {b : Byte} : decodeByte b = .input ↔ b = 0x2C := by
  refine ⟨fun h => ?_, fun h => h ▸ rfl⟩
  unfold decodeByte at h
  split_ifs at h
  assumption

theorem decodeByte_eq_loopOpen {b : Byte} : decodeByte b = .loopOpen ↔ b = 0x5B := by
  refine ⟨fun h => ?_, fun h => h ▸ rfl⟩
  unfold decodeByte at h
  split_ifs at h
  assumption

theorem decodeByte_eq_loopClose {b : Byte} : decodeByte b = .loopClose ↔ b = 0x5D := by
  refine ⟨fun h => ?_, fun h => h ▸ rfl⟩
  unfold decodeByte at h
  split_ifs at h
  assumption

/-- A NOP carries the byte it was read from. -/
theorem decodeByte_nop_byte {b c : Byte} (h : decodeByte b = .nop c) : c = b := by
  unfold decodeByte at h
  split_ifs at h
  cases h
  rfl

end Sys2Proof
end

