-- ==== Sys2Proof/Laws/Memory.lean ====
section
/-! SUPPORT. Byte memories: a read after a write, the canonical form, and that canonical memories with equal reads are
equal data. -/

namespace Sys2Proof.Machine

@[simp] theorem Memory.find_insert_self (a : Nat) (v : Byte) (m : Memory) : (m.insert a v).find a = some v := by
  induction m with
  | nil => simp [Memory.insert, Memory.find]
  | cons c m ih =>
    unfold Memory.insert
    split
    · simp [Memory.find]
    · split
      · simp [Memory.find]
      · rename_i h
        simp [Memory.find, Ne.symm h, ih]

theorem Memory.find_insert_ne {a b : Nat} (h : b ≠ a) (v : Byte) (m : Memory) : (m.insert a v).find b = m.find b := by
  induction m with
  | nil => simp [Memory.insert, Memory.find, h.symm]
  | cons c m ih =>
    unfold Memory.insert
    split
    · simp [Memory.find, h.symm]
    · split
      · rename_i h' ha
        simp [Memory.find, h.symm, ← ha]
      · simp only [Memory.find, ih]

@[simp] theorem Memory.find_erase_self (a : Nat) (m : Memory) : (m.erase a).find a = none := by
  induction m with
  | nil => rfl
  | cons c m ih =>
    unfold Memory.erase
    split
    · exact ih
    · rename_i h
      simp [Memory.find, h, ih]

theorem Memory.find_erase_ne {a b : Nat} (h : b ≠ a) (m : Memory) : (m.erase a).find b = m.find b := by
  induction m with
  | nil => rfl
  | cons c m ih =>
    unfold Memory.erase
    split
    · rename_i hc
      rw [ih, Memory.find, if_neg (hc ▸ h.symm)]
    · simp only [Memory.find, ih]

/-- 20_memory.md R34: a cell written reads as the value written. -/
@[simp] theorem tapeByte_tapeWrite_self (m : Memory) (a : Nat) (v : Byte) : tapeByte (tapeWrite m a v) a = v := by
  unfold tapeByte tapeWrite Memory.write tapeBlank
  split
  · rename_i h
    simpa using h.symm
  · simp

/-- 20_memory.md R34: a write leaves every other cell alone. -/
theorem tapeByte_tapeWrite_ne {a b : Nat} (h : b ≠ a) (m : Memory) (v : Byte) :
    tapeByte (tapeWrite m a v) b = tapeByte m b := by
  unfold tapeByte tapeWrite Memory.write
  split
  · rw [Memory.find_erase_ne h]
  · rw [Memory.find_insert_ne h]

@[simp] theorem progByte_progWrite_self (m : Memory) (a : Nat) (v : Byte) : progByte (progWrite m a v) a = v := by
  simp [progByte, progWrite, Memory.write, progBlank]

theorem progByte_progWrite_ne {a b : Nat} (h : b ≠ a) (m : Memory) (v : Byte) :
    progByte (progWrite m a v) b = progByte m b := by
  simp [progByte, progWrite, Memory.write, progBlank, Memory.find_insert_ne h]

/-! ### The canonical form -/

theorem Memory.wf_iff {bound : Nat} {blank : Option Byte} {m : Memory} :
    m.wf bound blank = true ↔ m.risesFrom 0 = true ∧ ∀ c ∈ m, c.1 < bound ∧ some c.2 ≠ blank := by
  simp [Memory.wf]

theorem Memory.risesFrom_mono {lo lo' : Nat} (h : lo ≤ lo') {m : Memory} (hm : m.risesFrom lo' = true) :
    m.risesFrom lo = true := by
  cases m with
  | nil => rfl
  | cons c m =>
    simp only [Memory.risesFrom, Bool.and_eq_true, decide_eq_true_eq] at hm ⊢
    exact ⟨le_trans h hm.1, hm.2⟩

theorem Memory.risesFrom_insert {lo a : Nat} (v : Byte) {m : Memory} (h : lo ≤ a) (hm : m.risesFrom lo = true) :
    (m.insert a v).risesFrom lo = true := by
  induction m generalizing lo with
  | nil => simp [Memory.insert, Memory.risesFrom, h]
  | cons c m ih =>
    simp only [Memory.risesFrom, Bool.and_eq_true, decide_eq_true_eq] at hm
    unfold Memory.insert
    split
    · rename_i hlt
      simp only [Memory.risesFrom, Bool.and_eq_true, decide_eq_true_eq]
      exact ⟨h, hlt, hm.2⟩
    · split
      · rename_i _ heq
        simp only [Memory.risesFrom, Bool.and_eq_true, decide_eq_true_eq]
        exact ⟨h, heq ▸ hm.2⟩
      · rename_i hlt hne
        simp only [Memory.risesFrom, Bool.and_eq_true, decide_eq_true_eq]
        exact ⟨hm.1, ih (by omega) hm.2⟩

theorem Memory.risesFrom_erase {lo : Nat} (a : Nat) {m : Memory} (hm : m.risesFrom lo = true) :
    (m.erase a).risesFrom lo = true := by
  induction m generalizing lo with
  | nil => rfl
  | cons c m ih =>
    simp only [Memory.risesFrom, Bool.and_eq_true, decide_eq_true_eq] at hm
    unfold Memory.erase
    split
    · exact Memory.risesFrom_mono (by omega) (ih hm.2)
    · simp only [Memory.risesFrom, Bool.and_eq_true, decide_eq_true_eq]
      exact ⟨hm.1, ih hm.2⟩

theorem Memory.mem_insert {a : Nat} {v : Byte} {m : Memory} {c : Host.Cell} (h : c ∈ m.insert a v) :
    c = (a, v) ∨ c ∈ m := by
  induction m with
  | nil => simpa [Memory.insert] using h
  | cons d m ih =>
    unfold Memory.insert at h
    split at h
    · simpa using h
    · split at h
      · simp only [List.mem_cons] at h ⊢
        tauto
      · simp only [List.mem_cons] at h ⊢
        rcases h with h | h
        · exact .inr (.inl h)
        · exact (ih h).imp id .inr

theorem Memory.mem_erase {a : Nat} {m : Memory} {c : Host.Cell} (h : c ∈ m.erase a) : c ∈ m := by
  induction m with
  | nil => exact h
  | cons d m ih =>
    unfold Memory.erase at h
    split at h
    · exact List.mem_cons_of_mem _ (ih h)
    · simp only [List.mem_cons] at h ⊢
      exact h.imp id ih

/-- Every write keeps the canonical form. -/
theorem Memory.wf_write {bound a : Nat} {blank : Option Byte} (v : Byte) {m : Memory} (h : a < bound)
    (hm : m.wf bound blank = true) : (m.write blank a v).wf bound blank = true := by
  rw [Memory.wf_iff] at hm ⊢
  unfold Memory.write
  split
  · exact ⟨Memory.risesFrom_erase a hm.1, fun c hc => hm.2 c (Memory.mem_erase hc)⟩
  · rename_i hv
    refine ⟨Memory.risesFrom_insert v (Nat.zero_le a) hm.1, fun c hc => ?_⟩
    rcases Memory.mem_insert hc with rfl | hc
    · exact ⟨h, hv⟩
    · exact hm.2 c hc

theorem tapeWrite_wf {bound a : Nat} (v : Byte) {m : Memory} (h : a < bound) (hm : m.wf bound tapeBlank = true) :
    (tapeWrite m a v).wf bound tapeBlank = true := Memory.wf_write v h hm

theorem progWrite_wf {bound a : Nat} (v : Byte) {m : Memory} (h : a < bound) (hm : m.wf bound progBlank = true) :
    (progWrite m a v).wf bound progBlank = true := Memory.wf_write v h hm

/-- The empty memory, as State.reset and a reset have it, is canonical. -/
@[simp] theorem Memory.wf_nil (bound : Nat) (blank : Option Byte) : Memory.wf bound blank [] = true := rfl

theorem Memory.find_eq_none_of_rises {lo a : Nat} {m : Memory} (hm : m.risesFrom lo = true) (h : a < lo) :
    m.find a = none := by
  induction m generalizing lo with
  | nil => rfl
  | cons c m ih =>
    simp only [Memory.risesFrom, Bool.and_eq_true, decide_eq_true_eq] at hm
    rw [Memory.find, if_neg (by omega), ih hm.2 (by omega)]

theorem Memory.mem_of_find {a : Nat} {v : Byte} {m : Memory} (h : m.find a = some v) : (a, v) ∈ m := by
  induction m with
  | nil => cases h
  | cons c m ih =>
    unfold Memory.find at h
    split at h
    · rename_i hc
      cases h
      exact hc ▸ List.mem_cons_self
    · exact List.mem_cons_of_mem _ (ih h)

theorem Memory.ext_of_rises {lo : Nat} {m m' : Memory} (hm : m.risesFrom lo = true) (hm' : m'.risesFrom lo = true)
    (h : ∀ a, m.find a = m'.find a) : m = m' := by
  induction m generalizing lo m' with
  | nil =>
    cases m' with
    | nil => rfl
    | cons c m' => simpa [Memory.find] using h c.1
  | cons c m ih =>
    cases m' with
    | nil => simpa [Memory.find] using h c.1
    | cons d m' =>
      simp only [Memory.risesFrom, Bool.and_eq_true, decide_eq_true_eq] at hm hm'
      have hcd : c.1 = d.1 := by
        rcases Nat.lt_trichotomy c.1 d.1 with hlt | heq | hgt
        · have hc := h c.1
          simp [Memory.find, Nat.ne_of_gt hlt, Memory.find_eq_none_of_rises hm'.2 (show c.1 < d.1 + 1 by omega)] at hc
        · exact heq
        · have hd := h d.1
          simp [Memory.find, Nat.ne_of_gt hgt, Memory.find_eq_none_of_rises hm.2 (show d.1 < c.1 + 1 by omega)] at hd
      have hv : c.2 = d.2 := by simpa [Memory.find, hcd] using h d.1
      have ht : m = m' := by
        refine ih hm.2 (hcd ▸ hm'.2) fun a => ?_
        by_cases ha : a = c.1
        · rw [ha, Memory.find_eq_none_of_rises hm.2 (by omega), Memory.find_eq_none_of_rises hm'.2 (by omega)]
        · simpa [Memory.find, Ne.symm ha, ← hcd] using h a
      exact ht ▸ congrArg (· :: m) (Prod.ext hcd hv)

/-- Canonical tapes with equal cells are equal data. -/
theorem tape_ext {bound : Nat} {m m' : Memory} (hm : m.wf bound tapeBlank = true) (hm' : m'.wf bound tapeBlank = true)
    (h : ∀ a, tapeByte m a = tapeByte m' a) : m = m' := by
  rw [Memory.wf_iff] at hm hm'
  refine Memory.ext_of_rises hm.1 hm'.1 fun a => ?_
  have ha := h a
  unfold tapeByte at ha
  cases hf : m.find a with
  | none =>
    cases hf' : m'.find a with
    | none => rfl
    | some v =>
      rw [hf, hf'] at ha
      exact absurd (congrArg some ha.symm) (hm'.2 _ (Memory.mem_of_find hf')).2
  | some v =>
    cases hf' : m'.find a with
    | none =>
      rw [hf, hf'] at ha
      exact absurd (congrArg some ha) (hm.2 _ (Memory.mem_of_find hf)).2
    | some w =>
      rw [hf, hf'] at ha
      exact congrArg some ha

end Sys2Proof.Machine
end

