-- ==== Sys2Proof/Laws/State.lean ====
section
/-! SUPPORT. One lemma per field per update of State, each true by rfl: no later proof unfolds a record update. -/

namespace Sys2Proof.Machine

/-! ### advance -/

@[simp] theorem advance_cfg (s : State) : (advance s).cfg = s.cfg := rfl
@[simp] theorem advance_prog (s : State) : (advance s).prog = s.prog := rfl
@[simp] theorem advance_plen (s : State) : (advance s).plen = s.plen := rfl
@[simp] theorem advance_tape (s : State) : (advance s).tape = s.tape := rfl
@[simp] theorem advance_dp (s : State) : (advance s).dp = s.dp := rfl
@[simp] theorem advance_ip (s : State) : (advance s).ip = s.ip + 1 := rfl
@[simp] theorem advance_runState (s : State) : (advance s).runState = s.runState := rfl
@[simp] theorem advance_faultCause (s : State) : (advance s).faultCause = s.faultCause := rfl
@[simp] theorem advance_phase (s : State) : (advance s).phase = s.phase := rfl
@[simp] theorem advance_sj (s : State) : (advance s).sj = s.sj := rfl
@[simp] theorem advance_depth (s : State) : (advance s).depth = s.depth := rfl
@[simp] theorem advance_obuf (s : State) : (advance s).obuf = s.obuf := rfl
@[simp] theorem advance_inQ (s : State) : (advance s).inQ = s.inQ := rfl
@[simp] theorem advance_outQ (s : State) : (advance s).outQ = s.outQ := rfl
@[simp] theorem advance_trace (s : State) : (advance s).trace = s.trace := rfl

/-! ### raiseFault -/

@[simp] theorem raiseFault_cfg (c : FaultCause) (s : State) : (raiseFault c s).cfg = s.cfg := rfl
@[simp] theorem raiseFault_prog (c : FaultCause) (s : State) : (raiseFault c s).prog = s.prog := rfl
@[simp] theorem raiseFault_plen (c : FaultCause) (s : State) : (raiseFault c s).plen = s.plen := rfl
@[simp] theorem raiseFault_tape (c : FaultCause) (s : State) : (raiseFault c s).tape = s.tape := rfl
@[simp] theorem raiseFault_dp (c : FaultCause) (s : State) : (raiseFault c s).dp = s.dp := rfl
@[simp] theorem raiseFault_ip (c : FaultCause) (s : State) : (raiseFault c s).ip = s.ip := rfl
@[simp] theorem raiseFault_runState (c : FaultCause) (s : State) : (raiseFault c s).runState = .fault := rfl
@[simp] theorem raiseFault_faultCause (c : FaultCause) (s : State) : (raiseFault c s).faultCause = c := rfl
@[simp] theorem raiseFault_phase (c : FaultCause) (s : State) : (raiseFault c s).phase = .exec := rfl
@[simp] theorem raiseFault_sj (c : FaultCause) (s : State) : (raiseFault c s).sj = s.sj := rfl
@[simp] theorem raiseFault_depth (c : FaultCause) (s : State) : (raiseFault c s).depth = s.depth := rfl
@[simp] theorem raiseFault_obuf (c : FaultCause) (s : State) : (raiseFault c s).obuf = s.obuf := rfl
@[simp] theorem raiseFault_inQ (c : FaultCause) (s : State) : (raiseFault c s).inQ = s.inQ := rfl
@[simp] theorem raiseFault_outQ (c : FaultCause) (s : State) : (raiseFault c s).outQ = s.outQ := rfl
@[simp] theorem raiseFault_trace (c : FaultCause) (s : State) : (raiseFault c s).trace = s.trace := rfl

/-! ### halt -/

@[simp] theorem halt_cfg (s : State) : (halt s).cfg = s.cfg := rfl
@[simp] theorem halt_prog (s : State) : (halt s).prog = s.prog := rfl
@[simp] theorem halt_plen (s : State) : (halt s).plen = s.plen := rfl
@[simp] theorem halt_tape (s : State) : (halt s).tape = s.tape := rfl
@[simp] theorem halt_dp (s : State) : (halt s).dp = s.dp := rfl
@[simp] theorem halt_ip (s : State) : (halt s).ip = s.ip := rfl
@[simp] theorem halt_runState (s : State) : (halt s).runState = .halted := rfl
@[simp] theorem halt_faultCause (s : State) : (halt s).faultCause = s.faultCause := rfl
@[simp] theorem halt_phase (s : State) : (halt s).phase = s.phase := rfl
@[simp] theorem halt_sj (s : State) : (halt s).sj = s.sj := rfl
@[simp] theorem halt_depth (s : State) : (halt s).depth = s.depth := rfl
@[simp] theorem halt_obuf (s : State) : (halt s).obuf = s.obuf := rfl
@[simp] theorem halt_inQ (s : State) : (halt s).inQ = s.inQ := rfl
@[simp] theorem halt_outQ (s : State) : (halt s).outQ = s.outQ := rfl
@[simp] theorem halt_trace (s : State) : (halt s).trace = s.trace := rfl

/-! ### hwReset -/

@[simp] theorem hwReset_cfg (s : State) : (hwReset s).cfg = s.cfg := rfl
@[simp] theorem hwReset_prog (s : State) : (hwReset s).prog = s.prog := rfl
@[simp] theorem hwReset_plen (s : State) : (hwReset s).plen = s.plen := rfl
@[simp] theorem hwReset_tape (s : State) : (hwReset s).tape = [] := rfl
@[simp] theorem hwReset_dp (s : State) : (hwReset s).dp = 0 := rfl
@[simp] theorem hwReset_ip (s : State) : (hwReset s).ip = 0 := rfl
@[simp] theorem hwReset_runState (s : State) : (hwReset s).runState = .running := rfl
@[simp] theorem hwReset_faultCause (s : State) : (hwReset s).faultCause = .noFault := rfl
@[simp] theorem hwReset_phase (s : State) : (hwReset s).phase = .exec := rfl
@[simp] theorem hwReset_sj (s : State) : (hwReset s).sj = 0 := rfl
@[simp] theorem hwReset_depth (s : State) : (hwReset s).depth = 0 := rfl
@[simp] theorem hwReset_obuf (s : State) : (hwReset s).obuf = 0 := rfl
@[simp] theorem hwReset_inQ (s : State) : (hwReset s).inQ = s.inQ := rfl
@[simp] theorem hwReset_outQ (s : State) : (hwReset s).outQ = s.outQ := rfl
@[simp] theorem hwReset_trace (s : State) : (hwReset s).trace = [] := rfl

/-! ### record -/

@[simp] theorem record_cfg (e : Event) (s : State) : (record e s).cfg = s.cfg := rfl
@[simp] theorem record_prog (e : Event) (s : State) : (record e s).prog = s.prog := rfl
@[simp] theorem record_plen (e : Event) (s : State) : (record e s).plen = s.plen := rfl
@[simp] theorem record_tape (e : Event) (s : State) : (record e s).tape = s.tape := rfl
@[simp] theorem record_dp (e : Event) (s : State) : (record e s).dp = s.dp := rfl
@[simp] theorem record_ip (e : Event) (s : State) : (record e s).ip = s.ip := rfl
@[simp] theorem record_runState (e : Event) (s : State) : (record e s).runState = s.runState := rfl
@[simp] theorem record_faultCause (e : Event) (s : State) : (record e s).faultCause = s.faultCause := rfl
@[simp] theorem record_phase (e : Event) (s : State) : (record e s).phase = s.phase := rfl
@[simp] theorem record_sj (e : Event) (s : State) : (record e s).sj = s.sj := rfl
@[simp] theorem record_depth (e : Event) (s : State) : (record e s).depth = s.depth := rfl
@[simp] theorem record_obuf (e : Event) (s : State) : (record e s).obuf = s.obuf := rfl
@[simp] theorem record_inQ (e : Event) (s : State) : (record e s).inQ = s.inQ := rfl
@[simp] theorem record_outQ (e : Event) (s : State) : (record e s).outQ = s.outQ := rfl
@[simp] theorem record_trace (e : Event) (s : State) : (record e s).trace = s.trace ++ [e] := rfl

/-! ### inTransfer -/

@[simp] theorem inTransfer_cfg (r : InResp) (s : State) : (inTransfer r s).cfg = s.cfg := rfl
@[simp] theorem inTransfer_prog (r : InResp) (s : State) : (inTransfer r s).prog = s.prog := rfl
@[simp] theorem inTransfer_plen (r : InResp) (s : State) : (inTransfer r s).plen = s.plen := rfl
@[simp] theorem inTransfer_tape (r : InResp) (s : State) : (inTransfer r s).tape = s.tape := rfl
@[simp] theorem inTransfer_dp (r : InResp) (s : State) : (inTransfer r s).dp = s.dp := rfl
@[simp] theorem inTransfer_ip (r : InResp) (s : State) : (inTransfer r s).ip = s.ip := rfl
@[simp] theorem inTransfer_runState (r : InResp) (s : State) : (inTransfer r s).runState = s.runState := rfl
@[simp] theorem inTransfer_faultCause (r : InResp) (s : State) : (inTransfer r s).faultCause = s.faultCause := rfl
@[simp] theorem inTransfer_phase (r : InResp) (s : State) : (inTransfer r s).phase = s.phase := rfl
@[simp] theorem inTransfer_sj (r : InResp) (s : State) : (inTransfer r s).sj = s.sj := rfl
@[simp] theorem inTransfer_depth (r : InResp) (s : State) : (inTransfer r s).depth = s.depth := rfl
@[simp] theorem inTransfer_obuf (r : InResp) (s : State) : (inTransfer r s).obuf = s.obuf := rfl
@[simp] theorem inTransfer_inQ (r : InResp) (s : State) : (inTransfer r s).inQ = s.inQ.tail := rfl
@[simp] theorem inTransfer_outQ (r : InResp) (s : State) : (inTransfer r s).outQ = s.outQ := rfl
@[simp] theorem inTransfer_trace (r : InResp) (s : State) : (inTransfer r s).trace = s.trace ++ [.inp r] := rfl

/-! ### outTransfer -/

@[simp] theorem outTransfer_cfg (v : Byte) (o : OutResp) (s : State) : (outTransfer v o s).cfg = s.cfg := rfl
@[simp] theorem outTransfer_prog (v : Byte) (o : OutResp) (s : State) : (outTransfer v o s).prog = s.prog := rfl
@[simp] theorem outTransfer_plen (v : Byte) (o : OutResp) (s : State) : (outTransfer v o s).plen = s.plen := rfl
@[simp] theorem outTransfer_tape (v : Byte) (o : OutResp) (s : State) : (outTransfer v o s).tape = s.tape := rfl
@[simp] theorem outTransfer_dp (v : Byte) (o : OutResp) (s : State) : (outTransfer v o s).dp = s.dp := rfl
@[simp] theorem outTransfer_ip (v : Byte) (o : OutResp) (s : State) : (outTransfer v o s).ip = s.ip := rfl
@[simp] theorem outTransfer_runState (v : Byte) (o : OutResp) (s : State) : (outTransfer v o s).runState = s.runState := rfl
@[simp] theorem outTransfer_faultCause (v : Byte) (o : OutResp) (s : State) : (outTransfer v o s).faultCause = s.faultCause := rfl
@[simp] theorem outTransfer_phase (v : Byte) (o : OutResp) (s : State) : (outTransfer v o s).phase = s.phase := rfl
@[simp] theorem outTransfer_sj (v : Byte) (o : OutResp) (s : State) : (outTransfer v o s).sj = s.sj := rfl
@[simp] theorem outTransfer_depth (v : Byte) (o : OutResp) (s : State) : (outTransfer v o s).depth = s.depth := rfl
@[simp] theorem outTransfer_obuf (v : Byte) (o : OutResp) (s : State) : (outTransfer v o s).obuf = v := rfl
@[simp] theorem outTransfer_inQ (v : Byte) (o : OutResp) (s : State) : (outTransfer v o s).inQ = s.inQ := rfl
@[simp] theorem outTransfer_outQ (v : Byte) (o : OutResp) (s : State) : (outTransfer v o s).outQ = s.outQ.tail := rfl
@[simp] theorem outTransfer_trace (v : Byte) (o : OutResp) (s : State) : (outTransfer v o s).trace = s.trace ++ [.out v o] := rfl

/-! ### beginForward -/

@[simp] theorem beginForward_cfg (s : State) : (beginForward s).cfg = s.cfg := rfl
@[simp] theorem beginForward_prog (s : State) : (beginForward s).prog = s.prog := rfl
@[simp] theorem beginForward_plen (s : State) : (beginForward s).plen = s.plen := rfl
@[simp] theorem beginForward_tape (s : State) : (beginForward s).tape = s.tape := rfl
@[simp] theorem beginForward_dp (s : State) : (beginForward s).dp = s.dp := rfl
@[simp] theorem beginForward_ip (s : State) : (beginForward s).ip = s.ip := rfl
@[simp] theorem beginForward_runState (s : State) : (beginForward s).runState = s.runState := rfl
@[simp] theorem beginForward_faultCause (s : State) : (beginForward s).faultCause = s.faultCause := rfl
@[simp] theorem beginForward_phase (s : State) : (beginForward s).phase = .scanFwd := rfl
@[simp] theorem beginForward_sj (s : State) : (beginForward s).sj = s.ip + 1 := rfl
@[simp] theorem beginForward_depth (s : State) : (beginForward s).depth = 1 := rfl
@[simp] theorem beginForward_obuf (s : State) : (beginForward s).obuf = s.obuf := rfl
@[simp] theorem beginForward_inQ (s : State) : (beginForward s).inQ = s.inQ := rfl
@[simp] theorem beginForward_outQ (s : State) : (beginForward s).outQ = s.outQ := rfl
@[simp] theorem beginForward_trace (s : State) : (beginForward s).trace = s.trace := rfl

/-! ### withHost -/

@[simp] theorem withHost_cfg (inQ : List InResp) (outQ : List OutResp) (s : State) : (s.withHost inQ outQ).cfg = s.cfg := rfl
@[simp] theorem withHost_prog (inQ : List InResp) (outQ : List OutResp) (s : State) : (s.withHost inQ outQ).prog = s.prog := rfl
@[simp] theorem withHost_plen (inQ : List InResp) (outQ : List OutResp) (s : State) : (s.withHost inQ outQ).plen = s.plen := rfl
@[simp] theorem withHost_tape (inQ : List InResp) (outQ : List OutResp) (s : State) : (s.withHost inQ outQ).tape = s.tape := rfl
@[simp] theorem withHost_dp (inQ : List InResp) (outQ : List OutResp) (s : State) : (s.withHost inQ outQ).dp = s.dp := rfl
@[simp] theorem withHost_ip (inQ : List InResp) (outQ : List OutResp) (s : State) : (s.withHost inQ outQ).ip = s.ip := rfl
@[simp] theorem withHost_runState (inQ : List InResp) (outQ : List OutResp) (s : State) : (s.withHost inQ outQ).runState = s.runState := rfl
@[simp] theorem withHost_faultCause (inQ : List InResp) (outQ : List OutResp) (s : State) : (s.withHost inQ outQ).faultCause = s.faultCause := rfl
@[simp] theorem withHost_phase (inQ : List InResp) (outQ : List OutResp) (s : State) : (s.withHost inQ outQ).phase = s.phase := rfl
@[simp] theorem withHost_sj (inQ : List InResp) (outQ : List OutResp) (s : State) : (s.withHost inQ outQ).sj = s.sj := rfl
@[simp] theorem withHost_depth (inQ : List InResp) (outQ : List OutResp) (s : State) : (s.withHost inQ outQ).depth = s.depth := rfl
@[simp] theorem withHost_obuf (inQ : List InResp) (outQ : List OutResp) (s : State) : (s.withHost inQ outQ).obuf = s.obuf := rfl
@[simp] theorem withHost_inQ (inQ : List InResp) (outQ : List OutResp) (s : State) : (s.withHost inQ outQ).inQ = inQ := rfl
@[simp] theorem withHost_outQ (inQ : List InResp) (outQ : List OutResp) (s : State) : (s.withHost inQ outQ).outQ = outQ := rfl
@[simp] theorem withHost_trace (inQ : List InResp) (outQ : List OutResp) (s : State) : (s.withHost inQ outQ).trace = s.trace := rfl

/-! ### withHidden -/

@[simp] theorem withHidden_cfg (sj depth : Nat) (obuf : Byte) (s : State) : (s.withHidden sj depth obuf).cfg = s.cfg := rfl
@[simp] theorem withHidden_prog (sj depth : Nat) (obuf : Byte) (s : State) : (s.withHidden sj depth obuf).prog = s.prog := rfl
@[simp] theorem withHidden_plen (sj depth : Nat) (obuf : Byte) (s : State) : (s.withHidden sj depth obuf).plen = s.plen := rfl
@[simp] theorem withHidden_tape (sj depth : Nat) (obuf : Byte) (s : State) : (s.withHidden sj depth obuf).tape = s.tape := rfl
@[simp] theorem withHidden_dp (sj depth : Nat) (obuf : Byte) (s : State) : (s.withHidden sj depth obuf).dp = s.dp := rfl
@[simp] theorem withHidden_ip (sj depth : Nat) (obuf : Byte) (s : State) : (s.withHidden sj depth obuf).ip = s.ip := rfl
@[simp] theorem withHidden_runState (sj depth : Nat) (obuf : Byte) (s : State) : (s.withHidden sj depth obuf).runState = s.runState := rfl
@[simp] theorem withHidden_faultCause (sj depth : Nat) (obuf : Byte) (s : State) : (s.withHidden sj depth obuf).faultCause = s.faultCause := rfl
@[simp] theorem withHidden_phase (sj depth : Nat) (obuf : Byte) (s : State) : (s.withHidden sj depth obuf).phase = s.phase := rfl
@[simp] theorem withHidden_sj (sj depth : Nat) (obuf : Byte) (s : State) : (s.withHidden sj depth obuf).sj = sj := rfl
@[simp] theorem withHidden_depth (sj depth : Nat) (obuf : Byte) (s : State) : (s.withHidden sj depth obuf).depth = depth := rfl
@[simp] theorem withHidden_obuf (sj depth : Nat) (obuf : Byte) (s : State) : (s.withHidden sj depth obuf).obuf = obuf := rfl
@[simp] theorem withHidden_inQ (sj depth : Nat) (obuf : Byte) (s : State) : (s.withHidden sj depth obuf).inQ = s.inQ := rfl
@[simp] theorem withHidden_outQ (sj depth : Nat) (obuf : Byte) (s : State) : (s.withHidden sj depth obuf).outQ = s.outQ := rfl
@[simp] theorem withHidden_trace (sj depth : Nat) (obuf : Byte) (s : State) : (s.withHidden sj depth obuf).trace = s.trace := rfl

end Sys2Proof.Machine
end

