-- ==== Sys2Proof/Laws/Ops.lean ====
section
/-! SUPPORT. What the shared operations can do: the current cell, the end of a transfer, a taken bracket. -/

namespace Sys2Proof.Machine

theorem withAcc_of_lt {s : State} (h : s.dp < s.cfg.tapeCap) (k : Byte → Res) : withAcc s k = k (s.cell s.dp) :=
  if_pos h

theorem withAcc_of_ge {s : State} (h : s.cfg.tapeCap ≤ s.dp) (k : Byte → Res) :
    withAcc s k = .fault (.tapeOutOfRange s.dp) := if_neg (by omega)

theorem storeAcc_of_lt {s : State} (h : s.dp < s.cfg.tapeCap) (v : Byte) (k : State → Res) :
    storeAcc v s k = k { s with tape := tapeWrite s.tape s.dp v } := if_pos h

theorem storeAcc_of_ge {s : State} (h : s.cfg.tapeCap ≤ s.dp) (v : Byte) (k : State → Res) :
    storeAcc v s k = .fault (.tapeOutOfRange s.dp) := if_neg (by omega)

/-- A use of the current cell goes on only where the cell exists. -/
theorem withAcc_next {s t : State} {k : Byte → Res} (h : withAcc s k = .next t) :
    s.dp < s.cfg.tapeCap ∧ k (s.cell s.dp) = .next t := by
  unfold withAcc at h
  split at h
  · exact ⟨‹_›, h⟩
  · cases h

theorem storeAcc_next {s t : State} {v : Byte} {k : State → Res} (h : storeAcc v s k = .next t) :
    s.dp < s.cfg.tapeCap ∧ k { s with tape := tapeWrite s.tape s.dp v } = .next t := by
  unfold storeAcc at h
  split at h
  · exact ⟨‹_›, h⟩
  · cases h

/-- The zero test is true exactly for the value 0 (41_cell_alu.md R70). -/
theorem aluZero_iff {v : Byte} : aluZero v = true ↔ v = 0 := by simp [aluZero]

@[simp] theorem finishOutput_ok (s : State) : finishOutput .ok s = advance s := rfl

@[simp] theorem finishOutput_err (s : State) : finishOutput .err s = raiseFault .outError s := rfl

/-- What the end of `.` or `,` writes: `ip` on success, the fault registers on a write failure. -/
theorem finishOutput_eq (o : OutResp) (s : State) :
    finishOutput o s =
      { s with
        ip := if o = .ok then s.ip + 1 else s.ip
        runState := if o = .ok then s.runState else .fault
        faultCause := if o = .ok then s.faultCause else .outError
        phase := if o = .ok then s.phase else .exec } := by
  cases o <;> rfl

/-- What a taken bracket writes, `ip`, the scan's registers, and on a scan that runs off an end the fault registers. -/
theorem takeBracket_eq (e : ScanEnd) (c : FaultCause) (s : State) :
    takeBracket e c s =
      { s with
        ip := (e.found.map (· + 1)).getD s.ip
        sj := e.sj
        depth := e.depth
        runState := if e.found.isSome then s.runState else .fault
        faultCause := if e.found.isSome then s.faultCause else c
        phase := if e.found.isSome then s.phase else .exec } := by
  unfold takeBracket
  cases e.found <;> rfl

/-- The stored value has the three shapes of 42_io.md R73 and R74. -/
theorem inValue_eq_none {c : Config} {r : InResp} : inValue c r = none ↔ r = .err := by
  cases r <;> simp [inValue]

theorem inResponse_answering (r : InResp) (o : OutResp) : (Pins.answering r o).inResponse = some r := by
  cases r <;> rfl

theorem outResponse_answering (r : InResp) (o : OutResp) : (Pins.answering r o).outResponse = some o := by
  cases o <;> rfl

end Sys2Proof.Machine
end

