-- ==== Sys2Proof/Laws/Exec.lean ====
section
/-! SUPPORT. One inversion lemma per meaning: what holds of the state and of the next state when it answers next. -/

namespace Sys2Proof.Machine

theorem execPtrInc_next {s t : State} (h : execPtrInc s = .next t) :
    t = advance { s with dp := dpNext s.cfg s.dp } := by
  cases h; rfl

theorem execPtrDec_next {s t : State} (h : execPtrDec s = .next t) :
    t = advance { s with dp := dpPrev s.cfg s.dp } := by
  cases h; rfl

theorem execNop_next {b : Byte} {s t : State} (h : execNop b s = .next t) : t = advance s := by
  cases h; rfl

theorem execCellInc_next {s t : State} (h : execCellInc s = .next t) :
    s.dp < s.cfg.tapeCap ∧ t = advance { s with tape := tapeWrite s.tape s.dp (aluInc (s.cell s.dp)) } := by
  obtain ⟨hd, h⟩ := withAcc_next h
  obtain ⟨-, h⟩ := storeAcc_next h
  cases h
  exact ⟨hd, rfl⟩

theorem execCellDec_next {s t : State} (h : execCellDec s = .next t) :
    s.dp < s.cfg.tapeCap ∧ t = advance { s with tape := tapeWrite s.tape s.dp (aluDec (s.cell s.dp)) } := by
  obtain ⟨hd, h⟩ := withAcc_next h
  obtain ⟨-, h⟩ := storeAcc_next h
  cases h
  exact ⟨hd, rfl⟩

/-- OUT holds where the host has no answer, else it makes its transfer and ends. -/
theorem execOutput_next {s t : State} (h : execOutput s = .next t) :
    (s.outQ = [] ∧ t = s) ∨
    (∃ o q, s.outQ = o :: q ∧ s.dp < s.cfg.tapeCap ∧ t = finishOutput o (outTransfer (s.cell s.dp) o s)) := by
  unfold execOutput at h
  split at h
  · cases h
    exact .inl ⟨‹_›, rfl⟩
  · obtain ⟨hd, h⟩ := withAcc_next h
    cases h
    exact .inr ⟨_, _, ‹_›, hd, rfl⟩

/-- IN holds where an answer it needs is missing, faults on a failed input transfer, else stores and echoes. -/
theorem execInput_next {s t : State} (h : execInput s = .next t) :
    (t = s ∧ (s.inQ = [] ∨ ∃ r q v, s.inQ = r :: q ∧ inValue s.cfg r = some v ∧ s.outQ = [])) ∨
    (∃ q, s.inQ = .err :: q ∧ t = raiseFault .inError (inTransfer .err s)) ∨
    (∃ r q v o q', s.inQ = r :: q ∧ inValue s.cfg r = some v ∧ s.outQ = o :: q' ∧ s.dp < s.cfg.tapeCap ∧
      t = finishOutput o (outTransfer v o { inTransfer r s with tape := tapeWrite s.tape s.dp v })) := by
  unfold execInput at h
  split at h
  · cases h
    exact .inl ⟨rfl, .inl ‹_›⟩
  · rename_i r q hq
    split at h
    · rename_i hv
      cases h
      obtain rfl := inValue_eq_none.1 hv
      exact .inr (.inl ⟨q, hq, rfl⟩)
    · rename_i v hv
      split at h
      · cases h
        exact .inl ⟨rfl, .inr ⟨r, q, v, hq, hv, ‹_›⟩⟩
      · rename_i o q' ho
        obtain ⟨hd, h⟩ := storeAcc_next h
        cases h
        exact .inr (.inr ⟨r, q, v, o, q', hq, hv, ho, hd, rfl⟩)

theorem execLoopOpen_next {s t : State} (h : execLoopOpen s = .next t) :
    s.dp < s.cfg.tapeCap ∧
    ((s.cell s.dp = 0 ∧ t = takeBracket (forwardScan s s.ip) .unmatchedOpen s) ∨
     (s.cell s.dp ≠ 0 ∧ t = advance s)) := by
  obtain ⟨hd, h⟩ := withAcc_next h
  refine ⟨hd, ?_⟩
  split at h <;> rename_i hz <;> cases h
  · exact .inl ⟨aluZero_iff.1 hz, rfl⟩
  · exact .inr ⟨fun h0 => hz (aluZero_iff.2 h0), rfl⟩

theorem execLoopClose_next {s t : State} (h : execLoopClose s = .next t) :
    s.dp < s.cfg.tapeCap ∧
    ((s.cell s.dp ≠ 0 ∧ t = takeBracket (backwardScan s s.ip) .unmatchedClose s) ∨
     (s.cell s.dp = 0 ∧ t = advance s)) := by
  obtain ⟨hd, h⟩ := withAcc_next h
  refine ⟨hd, ?_⟩
  split at h <;> rename_i hz <;> cases h
  · exact .inr ⟨aluZero_iff.1 hz, rfl⟩
  · exact .inl ⟨fun h0 => hz (aluZero_iff.2 h0), rfl⟩

/-! ### Where an instruction that uses the current cell completes -/

theorem execCellInc_of_lt {s : State} (h : s.dp < s.cfg.tapeCap) :
    execCellInc s = .next (advance { s with tape := tapeWrite s.tape s.dp (aluInc (s.cell s.dp)) }) := by
  rw [execCellInc, withAcc_of_lt h, storeAcc_of_lt h]

theorem execCellDec_of_lt {s : State} (h : s.dp < s.cfg.tapeCap) :
    execCellDec s = .next (advance { s with tape := tapeWrite s.tape s.dp (aluDec (s.cell s.dp)) }) := by
  rw [execCellDec, withAcc_of_lt h, storeAcc_of_lt h]

theorem execOutput_of_answer {s : State} {o : OutResp} {q : List OutResp} (h : s.dp < s.cfg.tapeCap) (ho : s.outQ = o :: q) :
    execOutput s = .next (finishOutput o (outTransfer (s.cell s.dp) o s)) := by
  unfold execOutput
  simp only [ho]
  exact withAcc_of_lt h _

theorem execInput_of_answers {s : State} {r : InResp} {v : Byte} {o : OutResp} {qi : List InResp} {qo : List OutResp}
    (h : s.dp < s.cfg.tapeCap) (hq : s.inQ = r :: qi) (hv : inValue s.cfg r = some v) (ho : s.outQ = o :: qo) :
    execInput s =
      .next (finishOutput o (outTransfer v o { inTransfer r s with tape := tapeWrite s.tape s.dp v })) := by
  unfold execInput
  simp only [hq, hv, ho]
  exact storeAcc_of_lt (s := inTransfer r s) h v _

theorem execLoopOpen_of_lt {s : State} (h : s.dp < s.cfg.tapeCap) :
    execLoopOpen s =
      .next (if aluZero (s.cell s.dp) then takeBracket (forwardScan s s.ip) .unmatchedOpen s else advance s) := by
  rw [execLoopOpen, withAcc_of_lt h]

theorem execLoopClose_of_lt {s : State} (h : s.dp < s.cfg.tapeCap) :
    execLoopClose s =
      .next (if aluZero (s.cell s.dp) then advance s else takeBracket (backwardScan s s.ip) .unmatchedClose s) := by
  rw [execLoopClose, withAcc_of_lt h]

theorem takeBracket_of_none {e : ScanEnd} (c : FaultCause) (s : State) (h : e.found = none) :
    takeBracket e c s = raiseFault c { s with sj := e.sj, depth := e.depth } := by
  simp [takeBracket, h]

theorem takeBracket_of_some {e : ScanEnd} {k : Nat} (c : FaultCause) (s : State) (h : e.found = some k) :
    takeBracket e c s = advance { s with ip := k, sj := e.sj, depth := e.depth } := by
  simp [takeBracket, h]

end Sys2Proof.Machine
end

