-- ==== Sys2Proof/Laws/PerInstr.lean ====
section
/-! SUPPORT. Statements made per instruction: every instruction is exactly one byte (30_encoding.md R53), the byte of its
row of the opcode table. -/

namespace Sys2Proof.Laws.OneByte

/-- The words of `i` are one byte, and nothing follows it. -/
def Statement (i : Instr) : Prop := encode i = [encodeByte i] ∧ (encode i).length = 1

theorem ptrInc : Statement .ptrInc := ⟨rfl, rfl⟩

theorem ptrDec : Statement .ptrDec := ⟨rfl, rfl⟩

theorem cellInc : Statement .cellInc := ⟨rfl, rfl⟩

theorem cellDec : Statement .cellDec := ⟨rfl, rfl⟩

theorem output : Statement .output := ⟨rfl, rfl⟩

theorem input : Statement .input := ⟨rfl, rfl⟩

theorem loopOpen : Statement .loopOpen := ⟨rfl, rfl⟩

theorem loopClose : Statement .loopClose := ⟨rfl, rfl⟩

theorem nop (byte : Byte) : Statement (.nop byte) := ⟨rfl, rfl⟩

end Sys2Proof.Laws.OneByte
end

