-- ==== Sys2Proof/Laws/Scanner.lean ====
section
/-! SUPPORT. What a scan step and a whole scan can do. -/

namespace Sys2Proof.Machine

/-- The forward counter moves at brackets only (43_control_flow.md R80). -/
theorem fwdDepth_eq (b : Byte) (d : Nat) :
    fwdDepth b d = if b = 0x5B then d + 1 else if b = 0x5D then d - 1 else d := by
  simp only [fwdDepth, ← decodeByte_eq_loopOpen, ← decodeByte_eq_loopClose]
  cases decodeByte b <;> rfl

/-- The backward counter moves at brackets only (43_control_flow.md R81). -/
theorem bwdDepth_eq (b : Byte) (d : Nat) :
    bwdDepth b d = if b = 0x5D then d + 1 else if b = 0x5B then d - 1 else d := by
  simp only [bwdDepth, ← decodeByte_eq_loopOpen, ← decodeByte_eq_loopClose]
  cases decodeByte b <;> rfl

theorem fwdDepth_le (b : Byte) (d : Nat) : fwdDepth b d ≤ d + 1 := by
  rw [fwdDepth_eq]
  split <;> [skip; split] <;> omega

theorem bwdDepth_le (b : Byte) (d : Nat) : bwdDepth b d ≤ d + 1 := by
  rw [bwdDepth_eq]
  split <;> [skip; split] <;> omega

/-- A forward scan stops on an index it was to examine with its counter at 0, or runs off the end. -/
theorem scanForward_cases (p : Memory) (left j d : Nat) (hd : 1 ≤ d) :
    (∃ k, scanForward p left j d = { found := some k, sj := k, depth := 0 } ∧ j ≤ k ∧ k < j + left) ∨
    (∃ d', scanForward p left j d = { found := none, sj := j + left, depth := d' } ∧ 1 ≤ d' ∧ d' ≤ d + left) := by
  induction left generalizing j d with
  | zero => exact .inr ⟨d, rfl, hd, by omega⟩
  | succ left ih =>
    unfold scanForward
    by_cases h0 : fwdDepth (progByte p j) d = 0
    · exact .inl ⟨j, by simp [h0], le_rfl, by omega⟩
    · have hle := fwdDepth_le (progByte p j) d
      simp only [h0, if_false]
      rcases ih (j + 1) _ (Nat.one_le_iff_ne_zero.2 h0) with ⟨k, hk, h1, h2⟩ | ⟨d', hk, h1, h2⟩
      · exact .inl ⟨k, hk, by omega, by omega⟩
      · exact .inr ⟨d', by rw [hk]; congr 1; omega, h1, by omega⟩

/-- A backward scan stops on an index it was to examine with its counter at 0, or runs off the start. -/
theorem scanBackward_cases (p : Memory) (left d : Nat) (hd : 1 ≤ d) :
    (∃ k, scanBackward p left d = { found := some k, sj := k, depth := 0 } ∧ k < left) ∨
    (∃ d', scanBackward p left d = { found := none, sj := 0, depth := d' } ∧ 1 ≤ d' ∧ d' ≤ d + left) := by
  induction left generalizing d with
  | zero => exact .inr ⟨d, rfl, hd, by omega⟩
  | succ j ih =>
    unfold scanBackward
    by_cases h0 : bwdDepth (progByte p j) d = 0
    · exact .inl ⟨j, by simp [h0], by omega⟩
    · have hle := bwdDepth_le (progByte p j) d
      simp only [h0, if_false]
      rcases ih _ (Nat.one_le_iff_ne_zero.2 h0) with ⟨k, hk, h1⟩ | ⟨d', hk, h1, h2⟩
      · exact .inl ⟨k, hk, by omega⟩
      · exact .inr ⟨d', hk, h1, by omega⟩

/-! ### The counts of R77 -/

theorem opens_self (p : Memory) (x : Nat) : opens p x x = 0 := by simp [opens]

theorem closes_self (p : Memory) (x : Nat) : closes p x x = 0 := by simp [closes]

/-- One more index at the right end of a range. -/
theorem opens_succ_right (p : Memory) {x y : Nat} (h : x ≤ y) :
    opens p x (y + 1) = opens p x y + if progByte p y = 0x5B then 1 else 0 := by
  unfold opens
  rw [Nat.succ_sub h, List.range'_concat, List.countP_append]
  simp [Nat.add_sub_cancel' h, List.countP_cons]

theorem closes_succ_right (p : Memory) {x y : Nat} (h : x ≤ y) :
    closes p x (y + 1) = closes p x y + if progByte p y = 0x5D then 1 else 0 := by
  unfold closes
  rw [Nat.succ_sub h, List.range'_concat, List.countP_append]
  simp [Nat.add_sub_cancel' h, List.countP_cons]

/-- One more index at the left end of a range. -/
theorem opens_succ_left (p : Memory) {x y : Nat} (h : x < y) :
    opens p x y = opens p (x + 1) y + if progByte p x = 0x5B then 1 else 0 := by
  unfold opens
  rw [show y - x = (y - (x + 1)) + 1 by omega, List.range'_succ, List.countP_cons]
  simp

theorem closes_succ_left (p : Memory) {x y : Nat} (h : x < y) :
    closes p x y = closes p (x + 1) y + if progByte p x = 0x5D then 1 else 0 := by
  unfold closes
  rw [show y - x = (y - (x + 1)) + 1 by omega, List.range'_succ, List.countP_cons]
  simp

end Sys2Proof.Machine
end

