-- ==== Sys2Proof/Laws/Step.lean ====
section
/-! SUPPORT. The cases of a step and of a clock edge. -/

namespace Sys2Proof.Machine

theorem step_of_halted {s : State} (h : s.runState = .halted) : step s = .next s := by
  simp [step, stepOf, h]

theorem step_of_fault {s : State} (h : s.runState = .fault) : step s = .next s := by
  simp [step, stepOf, h]

theorem step_of_running {s : State} (h : s.runState = .running) : step s = midStep s := by
  simp [step, stepOf, h]

theorem midStep_of_exec {s : State} (h : s.phase = .exec) : midStep s = boundaryStep s := by
  simp [midStep, h]

theorem boundaryStep_of_ge {s : State} (h : s.plen ≤ s.ip) : boundaryStep s = .next (halt s) := if_pos h

theorem boundaryStep_of_lt {s : State} (h : s.ip < s.plen) : boundaryStep s = exec (fetch s) s := if_neg (by omega)

theorem clockEdge_of_rst {p : Pins} {s : State} (h : p.rst = true) : clockEdge p s = .next (loadPort p (hwReset s)) :=
  if_pos h

theorem clockEdge_of_running {p : Pins} {s : State} (hp : p.rst = false) (h : s.runState = .running) :
    clockEdge p s = cycle p.inResponse p.outResponse s := by
  simp [clockEdge, hp, h]

theorem clockEdge_of_stopped {p : Pins} {s : State} (hp : p.rst = false) (h : s.runState ≠ .running) :
    clockEdge p s = .next (loadPort p s) := by
  cases hr : s.runState <;> simp_all [clockEdge]

/-- What the load port can write: `prog` at one index, and `plen` (20_memory.md R47). -/
theorem loadPort_eq (p : Pins) (s : State) :
    loadPort p s =
      { s with
        prog := if p.progWe = true ∧ p.progAddr < s.cfg.progMax then progWrite s.prog p.progAddr p.progWdata else s.prog
        plen := if p.plenWe = true ∧ p.plenWdata ≤ s.cfg.progMax then p.plenWdata else s.plen } := by
  unfold loadPort loadLength loadByte
  by_cases h1 : p.progWe = true ∧ p.progAddr < s.cfg.progMax <;>
    by_cases h2 : p.plenWe = true ∧ p.plenWdata ≤ s.cfg.progMax <;> simp [h1, h2]

/-! ### What a cycle of the multi-cycle build can do -/

theorem cycle_next {rin : Option InResp} {rout : Option OutResp} {s t : State} (h : cycle rin rout s = .next t) :
    (s.phase = .exec ∧ beginCycle s = .next t) ∨
    (s.phase = .scanFwd ∧ t = scanFwdCycle s) ∨
    (s.phase = .scanBwd ∧ t = scanBwdCycle s) ∨
    ((s.phase = .waitIn ∨ s.phase = .waitOut) ∧ t = s) ∨
    (s.phase = .waitIn ∧ ∃ r, rin = some r ∧ acceptInput r s = .next t) ∨
    (s.phase = .waitOut ∧ ∃ o, rout = some o ∧ t = acceptOutput o s) := by
  unfold cycle at h
  split at h <;> rename_i hp
  · exact .inl ⟨hp, h⟩
  · cases h; simp [hp]
  · cases h; simp [hp]
  · split at h
    · cases h; simp [hp]
    · exact .inr (.inr (.inr (.inr (.inl ⟨hp, _, rfl, h⟩))))
  · split at h
    · cases h; simp [hp]
    · cases h
      exact .inr (.inr (.inr (.inr (.inr ⟨hp, _, rfl, rfl⟩))))

theorem acceptInput_next {r : InResp} {s t : State} (h : acceptInput r s = .next t) :
    (r = .err ∧ t = raiseFault .inError (record (.inp r) s)) ∨
    (∃ v, inValue s.cfg r = some v ∧ s.dp < s.cfg.tapeCap ∧
      t = { record (.inp r) s with tape := tapeWrite s.tape s.dp v, obuf := v, phase := .waitOut }) := by
  unfold acceptInput at h
  split at h
  · cases h
    exact .inl ⟨inValue_eq_none.1 ‹_›, rfl⟩
  · obtain ⟨hd, h⟩ := storeAcc_next h
    cases h
    exact .inr ⟨_, ‹_›, hd, rfl⟩

/-- The first cycle: the halt, a bracket, a wait that begins, or an instruction of one cycle. -/
theorem beginCycle_next {s t : State} (h : beginCycle s = .next t) :
    (s.plen ≤ s.ip ∧ t = halt s) ∨
    (s.ip < s.plen ∧
      ((s.dp < s.cfg.tapeCap ∧ (t = advance s ∨ t = beginForward s ∨ t = beginBackward s)) ∨
       t = { s with phase := .waitIn } ∨
       t = { s with obuf := s.cell s.dp, phase := .waitOut } ∨
       ∃ i, i ≠ .input ∧ i ≠ .output ∧ i ≠ .loopOpen ∧ i ≠ .loopClose ∧ exec i s = .next t)) := by
  unfold beginCycle at h
  split at h
  · cases h
    exact .inl ⟨‹_›, rfl⟩
  · refine .inr ⟨by omega, ?_⟩
    split at h
    case h_5 =>
      obtain ⟨-, h⟩ := withAcc_next h
      cases h
      exact .inr (.inr (.inl rfl))
    case h_6 =>
      cases h
      exact .inr (.inl rfl)
    case h_7 =>
      obtain ⟨hd, h⟩ := withAcc_next h
      cases h
      refine .inl ⟨hd, ?_⟩
      split <;> simp
    case h_8 =>
      obtain ⟨hd, h⟩ := withAcc_next h
      cases h
      refine .inl ⟨hd, ?_⟩
      split <;> simp
    all_goals exact .inr (.inr (.inr ⟨_, by simp, by simp, by simp, by simp, h⟩))

/-! ### What the output port shows -/

theorem outData_of_waitOut {s : State} (reading : Nat) (h : s.phase = .waitOut) : outData reading s = s.obuf := if_pos h

/-- Outside WAIT_OUT no register of the block is on the output port. -/
theorem outData_of_idle {s : State} (reading : Nat) (h : s.phase ≠ .waitOut) :
    outData reading s = Config.idleOutData reading := if_neg h

end Sys2Proof.Machine
end

