-- ==== Sys2Proof/Tests/Slice0.lean ====
section
/-! SUPPORT. The model's own tests. Expected results are those of spec/95_test_vectors.md and of the rules' examples; each
witness shows that the hypotheses of the statement it names can be met together. -/

namespace Sys2Proof.Tests

open Sys2Proof.Machine

/-- A small build: five cells, not a power of two (95_test_vectors.md L1.2). -/
def small : Config := { tapeCap := 5, progMax := 64, eotIsEof := false }

/-- A launched small machine with no host answers. -/
def load (bytes : List Byte) : State := launch small bytes [] []

/-- Whether a meaning answers a next state with a property. -/
def answers (r : Res) (p : State → Bool) : Bool :=
  match r with
  | .next t => p t
  | .fault _ => false
  | .refused _ => false

/-! ### WellFormed: each of the eight instruction bytes is refused as a NOP's byte (30_encoding.md R56) -/

theorem test_wellFormed_refuses_instruction_bytes_as_nops :
    (instructionBytes.map fun b => wellFormed (.nop b)) = List.replicate 8 false := by decide

theorem test_wellFormed_nop_neighbours :
    ([0x2A, 0x2F, 0x3B, 0x3D, 0x3F, 0x5A, 0x5C, 0x5E] : List Byte).all (fun b => wellFormed (.nop b)) = true := by decide

/-! ### Decoding: the words of 30_encoding.md R55, bit by bit -/

theorem test_decode_ptrInc : decode [0b0011_1110#8] = .ok (.ptrInc, []) := by rfl

theorem test_decode_ptrDec : decode [0b0011_1100#8] = .ok (.ptrDec, []) := by rfl

theorem test_decode_cellInc : decode [0b0010_1011#8] = .ok (.cellInc, []) := by rfl

theorem test_decode_cellDec : decode [0b0010_1101#8] = .ok (.cellDec, []) := by rfl

theorem test_decode_output : decode [0b0010_1110#8] = .ok (.output, []) := by rfl

theorem test_decode_input : decode [0b0010_1100#8] = .ok (.input, []) := by rfl

theorem test_decode_loopOpen : decode [0b0101_1011#8] = .ok (.loopOpen, []) := by rfl

theorem test_decode_loopClose : decode [0b0101_1101#8] = .ok (.loopClose, []) := by rfl

/-- The NOP column of the decoder's vectors, 0xAB and 0xDB (bit 7 set) among them. -/
theorem test_decode_nops :
    ([0x2A, 0x2F, 0x3B, 0x3D, 0x3F, 0x5A, 0x5C, 0x5E, 0x00, 0xFF, 0x04, 0x0A, 0xAB, 0xDB] : List Byte).all
      (fun b => decodeByte b == .nop b) = true := by decide

theorem test_decode_nothing : decode [] = .error .noByte := by rfl

/-! ### One step of each instruction (95_test_vectors.md L2) -/

theorem test_ptrInc_wraps : answers (exec .ptrInc { load [0x3E] with dp := 4 }) (fun t => t.dp == 0 && t.ip == 1) = true := by
  decide

theorem test_ptrInc_moves :
    answers (exec .ptrInc { State.reset with dp := 29998 }) (fun t => t.dp == 29999 && t.ip == 1) = true := by decide

theorem test_ptrDec_wraps_to_the_last_index :
    answers (exec .ptrDec State.reset) (fun t => t.dp == 29999 && t.ip == 1) = true := by decide

theorem test_ptrDec_single_cell :
    answers (exec .ptrDec { load [0x3C] with cfg := { small with tapeCap := 1 } }) (fun t => t.dp == 0) = true := by decide

theorem test_cellInc_wraps :
    answers (exec .cellInc { load [0x2B] with tape := [(0, 255)] }) (fun t => t.cell 0 == 0 && t.tape == []) = true := by
  decide

theorem test_cellInc_127 :
    answers (exec .cellInc { load [0x2B] with tape := [(0, 127), (1, 9)] })
      (fun t => t.tape == [(0, 128), (1, 9)] && t.ip == 1) = true := by decide

theorem test_cellDec_wraps :
    answers (exec .cellDec { load [0x2D] with dp := 1, tape := [(0, 3)] }) (fun t => t.tape == [(0, 3), (1, 255)]) = true := by
  decide

theorem test_cellDec_255 :
    answers (exec .cellDec { load [0x2D] with tape := [(0, 255)] }) (fun t => t.cell 0 == 254) = true := by decide

theorem test_output_255 :
    answers (exec .output { load [0x2E] with tape := [(0, 255)], outQ := [.ok] })
      (fun t => t.trace == [.out 255 .ok] && t.outputStream == [255] && t.ip == 1 && t.runState == .running) = true := by
  decide

theorem test_output_error :
    answers (exec .output { load [0x2E] with tape := [(0, 1)], outQ := [.err] })
      (fun t => t.trace == [.out 1 .err] && t.ip == 0 && t.runState == .fault && t.faultCause == .outError &&
        (outputs 0 t).faultCause == 4) = true := by decide

theorem test_input_eot_both_ways :
    answers (exec .input { load [0x2C] with tape := [(0, 9)], inQ := [.byte 4], outQ := [.ok] })
      (fun t => t.cell 0 == 4 && t.trace == [.inp (.byte 4), .out 4 .ok]) = true ∧
    answers (exec .input { load [0x2C] with
        cfg := { small with eotIsEof := true }, tape := [(0, 9)], inQ := [.byte 4], outQ := [.ok] })
      (fun t => t.cell 0 == 0 && t.trace == [.inp (.byte 4), .out 0 .ok]) = true := by decide

theorem test_input_errors :
    answers (exec .input { load [0x2C] with tape := [(0, 9)], inQ := [.err] })
      (fun t => t.cell 0 == 9 && t.trace == [.inp .err] && t.ip == 0 && t.faultCause == .inError) = true ∧
    answers (exec .input { load [0x2C] with tape := [(0, 9)], inQ := [.byte 7], outQ := [.err] })
      (fun t => t.cell 0 == 7 && t.trace == [.inp (.byte 7), .out 7 .err] && t.ip == 0 && t.faultCause == .outError) = true := by
  decide

/-- `[[]]` with a zero cell: counter 1, 2, 1, 0 at index 3, next `ip` 4. -/
theorem test_loopOpen_skips_nested :
    answers (exec .loopOpen (load [0x5B, 0x5B, 0x5D, 0x5D])) (fun t => t.ip == 4 && t.runState == .running) = true := by
  decide

theorem test_loopOpen_unmatched :
    answers (exec .loopOpen (load [0x5B, 0x2B]))
      (fun t => t.ip == 0 && t.runState == .fault && t.faultCause == .unmatchedOpen && t.tape == []) = true := by decide

/-- `[[-]]` at the outer `]`, cell 1: counter 1, 2, 1, 0 at index 0, next `ip` 1. -/
theorem test_loopClose_jumps_back_nested :
    answers (exec .loopClose { load [0x5B, 0x5B, 0x2D, 0x5D, 0x5D] with ip := 4, tape := [(0, 1)] })
      (fun t => t.ip == 1 && t.runState == .running) = true := by decide

/-- `+[-]+]` at index 5, cell 1: the scan passes the balanced loop and runs off index 0. -/
theorem test_loopClose_unmatched :
    answers (exec .loopClose { load [0x2B, 0x5B, 0x2D, 0x5D, 0x2B, 0x5D] with ip := 5, tape := [(0, 1)] })
      (fun t => t.ip == 5 && t.runState == .fault && t.faultCause == .unmatchedClose) = true := by decide

theorem test_nop_advances : answers (step (load [0x61])) (fun t => t == { load [0x61] with ip := 1 }) = true := by decide

theorem test_empty_program_halts :
    answers (step (load [])) (fun t => t == { load [] with runState := .halted }) = true := by decide

/-! ### The host's access -/

/-- The table's words of the nine rows, NOP's as its match gives it. -/
theorem test_decodeTableWord :
    [0x3E, 0x3C, 0x2B, 0x2D, 0x2E, 0x2C, 0x5B, 0x5D, 0x00].map (decodeTableWord 8) =
      [some .ptrInc, some .ptrDec, some .cellInc, some .cellDec, some .output, some .input, some .loopOpen,
        some .loopClose, some (.nop 0)] := by decide

/-- Each of them runs as the first instruction after reset: the seven that do not fault leave `ip` at 1, `[` with a zero
cell and no match takes its fault. -/
theorem test_first_instruction_after_reset :
    ([0x3E, 0x3C, 0x2B, 0x2D, 0x2E, 0x2C, 0x5D, 0x00].all fun w =>
      answers (step (State.reset.withFetchWord 8 w)) fun t => t.ip == 1 && t.runState == .running) = true ∧
    answers (step (State.reset.withFetchWord 8 0x5B)) (fun t => t.faultCause == .unmatchedOpen && t.ip == 0) = true := by
  decide

/-- A running block ignores the load port, a halted one accepts it (20_memory.md R47). -/
theorem test_load_port :
    answers (clockEdge { Pins.idle with progWe := true, progWdata := 7 } (load [0x61])) (fun t => t.code 0 == 0x61) = true ∧
    answers (clockEdge { Pins.idle with progWe := true, progWdata := 7 } { load [0x61] with runState := .halted })
      (fun t => t.code 0 == 7) = true := by decide

/-- A scan cycle examines one byte (43_control_flow.md R85): `[+]` with a zero cell begins at index 1. -/
theorem test_scan_begins :
    answers (clockEdge Pins.idle (load [0x5B, 0x2B, 0x5D])) (fun t => t.phase == .scanFwd && t.sj == 1 && t.depth == 1) = true := by
  decide

/-! ### Witnesses: the hypotheses of each statement that has any, met together by a concrete state -/

/-- A small machine with an answer of each kind waiting. -/
def answered (bytes : List Byte) (r : InResp) (o : OutResp) : State := launch small bytes [r] [o]

theorem witness_DecoderFollowsTheOpcodeMap : (0x61 : Byte) ∉ instructionBytes ∧ (0xFF : Byte) ∉ instructionBytes := by decide

theorem witness_DecodingAnEncodedInstructionGivesItBack :
    wellFormed .loopClose = true ∧ wellFormed (.nop 0x00) = true ∧ wellFormed (.nop 0xFF) = true := by decide

theorem ready_load {b : Byte} {bs : List Byte} : Ready (load (b :: bs)) := ⟨rfl, rfl, Nat.succ_pos _⟩

theorem inv_load_cellInc : MachineInv (load [0x2B]) := by constructor <;> trivial

theorem witness_StepRunsTheDecodedInstruction :
    Ready (load [0x2B]) ∧ decode (load [0x2B]).fetchBytes = .ok (.cellInc, []) ∧ wellFormed .cellInc = true :=
  ⟨ready_load, rfl, rfl⟩

theorem witness_HaltCheckComesBeforeEveryFetch :
    ({ load [0x61] with ip := 1 } : State).runState = .running ∧ ({ load [0x61] with ip := 1 } : State).phase = .exec ∧
    ({ load [0x61] with ip := 1 } : State).plen ≤ ({ load [0x61] with ip := 1 } : State).ip ∧ (load []).plen = 0 := by decide

/-- One witness for each of the four ends: a hold (of each kind), a fault, an advance, a taken bracket. -/
theorem witness_InstructionHoldsFaultsOrAdvances :
    (load [0x2E]).runState = .running ∧ exec .output (load [0x2E]) = .next (load [0x2E]) ∧
    exec .input (load [0x2C]) = .next (load [0x2C]) ∧
    exec .input (launch small [0x2C] [.byte 1] []) = .next (launch small [0x2C] [.byte 1] []) ∧
    answers (exec .loopOpen (load [0x5B])) (fun t => t.runState == .fault) = true ∧
    answers (exec .ptrInc (load [0x3E])) (fun t => t.runState == .running) = true ∧
    answers (exec .loopOpen (load [0x5B, 0x5D])) (fun t => t.runState == .running) = true :=
  ⟨rfl, rfl, rfl, rfl, by decide, by decide, by decide⟩

theorem witness_EveryStepCompletes : MachineInv (load [0x2B]) := inv_load_cellInc

/-- Both ends of the pointer's range. -/
theorem witness_PtrIncMovesOneCellWithWraparound :
    (load [0x3E]).dp < (load [0x3E]).cfg.tapeCap ∧
    ({ load [0x3E] with dp := 4 } : State).dp < ({ load [0x3E] with dp := 4 } : State).cfg.tapeCap := by decide

theorem witness_PtrDecMovesOneCellWithWraparound :
    (load [0x3C]).dp < (load [0x3C]).cfg.tapeCap ∧
    ({ load [0x3C] with dp := 4 } : State).dp < ({ load [0x3C] with dp := 4 } : State).cfg.tapeCap := by decide

theorem witness_CellIncAddsOneModulo256 :
    ({ load [0x2B] with dp := 4, tape := [(4, 255)] } : State).dp < small.tapeCap ∧
    ({ load [0x2B] with dp := 4, tape := [(4, 255)] } : State).tape.wf small.tapeCap tapeBlank = true := by decide

theorem witness_CellDecSubtractsOneModulo256 :
    (load [0x2D]).dp < small.tapeCap ∧ (load [0x2D]).tape.wf small.tapeCap tapeBlank = true := by decide

theorem witness_OutEmitsTheCurrentCell :
    (answered [0x2E] .eof .ok).dp < small.tapeCap ∧ (answered [0x2E] .eof .ok).outQ = [.ok] ∧
    (answered [0x2E] .eof .err).outQ = [.err] := by decide

/-- End of input, the byte 0x04 in both builds, another byte, and a failure. -/
theorem witness_InStoresThenEchoes :
    (answered [0x2C] .eof .ok).dp < small.tapeCap ∧ (answered [0x2C] .eof .ok).inQ = [.eof] ∧
    (answered [0x2C] .eof .ok).outQ = [.ok] ∧ (answered [0x2C] (.byte 4) .err).inQ = [.byte 4] ∧
    (answered [0x2C] (.byte 4) .err).outQ = [.err] ∧
    ((4 : Byte) = if small.eotIsEof = true ∧ (4 : Byte) = 0x04 then 0 else 4) ∧
    ((0 : Byte) = if ({ small with eotIsEof := true } : Config).eotIsEof = true ∧ (4 : Byte) = 0x04 then 0 else 4) ∧
    (answered [0x2C] .err .ok).inQ = [.err] := by decide

theorem witness_TransfersWaitForTheHost :
    (load [0x2E]).outQ = [] ∧ (load [0x2C]).inQ = [] ∧ (launch small [0x2C] [.byte 1] []).inQ = [.byte 1] ∧
    InResp.byte 1 ≠ .err ∧ (launch small [0x2C] [.byte 1] []).outQ = [] := by decide

/-- A transfer made and a transfer waited for, of each of the two, and an instruction with none. -/
theorem witness_TraceRecordsEachTransfer :
    answers (exec .input (answered [0x2C] (.byte 65) .ok)) (fun t => t.trace.length == 2) = true ∧
    answers (exec .input (answered [0x2C] .err .ok)) (fun t => t.trace.length == 1) = true ∧
    answers (exec .output (answered [0x2E] .eof .ok)) (fun t => t.trace.length == 1) = true ∧
    exec .input (load [0x2C]) = .next (load [0x2C]) ∧
    answers (exec .ptrInc (load [0x3E])) (fun t => t.trace == []) = true :=
  ⟨by decide, by decide, by decide, rfl, by decide⟩

theorem match_pair : isMatchFwd (load [0x5B, 0x5D]).prog 2 0 1 :=
  ⟨by decide, by decide, by decide, fun j h1 h2 => by omega⟩

theorem match_pair_back : isMatchBwd (load [0x5B, 0x5D]).prog 1 0 :=
  ⟨by decide, by decide, fun j h1 h2 => by omega⟩

/-- A non-zero cell, a zero cell with a match, and a zero cell without one. -/
theorem witness_LoopOpenSkipsOnZero :
    (load [0x5B, 0x5D]).dp < small.tapeCap ∧
    ({ load [0x5B] with tape := [(0, 1)] } : State).cell 0 ≠ 0 ∧
    ((load [0x5B, 0x5D]).cell 0 = 0 ∧ isMatchFwd (load [0x5B, 0x5D]).prog (load [0x5B, 0x5D]).plen 0 1) ∧
    ((load [0x5B]).cell 0 = 0 ∧ ∀ k, ¬ isMatchFwd (load [0x5B]).prog (load [0x5B]).plen 0 k) :=
  ⟨by decide, by decide, ⟨by decide, match_pair⟩, by decide, fun k h => by
    have h1 : 0 < k := h.1
    have h2 : k < 1 := h.2.1
    omega⟩

/-- A zero cell, a non-zero cell with a match, and a non-zero cell without one. -/
theorem witness_LoopCloseJumpsBackOnNonzero :
    (load [0x5B, 0x5D]).dp < small.tapeCap ∧ (load [0x5D]).cell 0 = 0 ∧
    (({ load [0x5B, 0x5D] with ip := 1, tape := [(0, 1)] } : State).cell 0 ≠ 0 ∧
      isMatchBwd ({ load [0x5B, 0x5D] with ip := 1, tape := [(0, 1)] } : State).prog 1 0) ∧
    (({ load [0x5D] with tape := [(0, 1)] } : State).cell 0 ≠ 0 ∧ ∀ k, ¬ isMatchBwd (load [0x5D]).prog 0 k) :=
  ⟨by decide, by decide, ⟨by decide, match_pair_back⟩, by decide, fun k h => absurd h.1 (Nat.not_lt_zero k)⟩

theorem witness_ScansComputeTheMatchingBracket :
    isMatchFwd (load [0x5B, 0x5D]).prog 2 0 1 ∧ isMatchBwd (load [0x5B, 0x5D]).prog 1 0 := ⟨match_pair, match_pair_back⟩

theorem witness_BracketPartnersAgree :
    1 < 2 ∧ progByte (load [0x5B, 0x5D]).prog 0 = 0x5B ∧ progByte (load [0x5B, 0x5D]).prog 1 = 0x5D := by decide

theorem witness_LoopRunsItsBodyWhileCellIsNonzero :
    (Ready (load [0x5B, 0x5D]) ∧ (load [0x5B, 0x5D]).dp < small.tapeCap ∧ (load [0x5B, 0x5D]).code 0 = 0x5B ∧
      isMatchFwd (load [0x5B, 0x5D]).prog (load [0x5B, 0x5D]).plen 0 1) ∧
    (Ready { load [0x5B, 0x5D] with ip := 1 } ∧ (load [0x5B, 0x5D]).code 0 = 0x5B ∧ (load [0x5B, 0x5D]).code 1 = 0x5D ∧
      isMatchFwd (load [0x5B, 0x5D]).prog (load [0x5B, 0x5D]).plen 0 1) :=
  ⟨⟨ready_load, by decide, by decide, match_pair⟩, ⟨rfl, rfl, Nat.lt_succ_self 1⟩, by decide, by decide, match_pair⟩

theorem witness_NopOnlyAdvances : ∀ b ∈ ([0x00, 0x04, 0x0A, 0xFF] : List Byte), b ∉ instructionBytes := by decide

theorem witness_FrameOfInstructionsThatStoreNothing :
    answers (exec .output (answered [0x2E] .eof .ok)) (fun t => t.runState != .fault) = true ∧
    answers (exec .loopOpen (load [0x5B, 0x5D])) (fun t => t.runState != .fault) = true ∧
    answers (exec .ptrDec (load [0x3C])) (fun t => t.runState != .fault) = true := by decide

theorem witness_FrameOfInstructionsThatStore :
    answers (exec .cellInc (load [0x2B])) (fun t => t.runState != .fault) = true ∧
    answers (exec .cellDec (load [0x2D])) (fun t => t.runState != .fault) = true ∧
    answers (exec .input (answered [0x2C] (.byte 3) .ok)) (fun t => t.runState != .fault) = true := by decide

theorem witness_OnlyTheCurrentCellMatters :
    tapeByte [(3, 8)] (load [0x2B]).dp = (load [0x2B]).cell (load [0x2B]).dp ∧
    answers (exec .cellInc (load [0x2B])) (fun _ => true) = true := by decide

theorem witness_HiddenRegistersAreUnobservable :
    (load [0x5B, 0x5D]).phase = .exec ∧ answers (step (load [0x5B, 0x5D])) (fun _ => true) = true := by decide

theorem witness_ProgramIsReadOnlyWhileRunning :
    answers (exec .cellInc (load [0x2B])) (fun _ => true) = true ∧ answers (step (load [0x2B])) (fun _ => true) = true ∧
    Pins.idle.rst = false ∧ (load [0x2B]).runState = .running ∧
    answers (clockEdge Pins.idle (load [0x2B])) (fun _ => true) = true := by decide

/-- Each of the four causes. -/
theorem witness_FaultCausesFollowTheTable :
    (load [0x5B]).runState = .running ∧
    answers (exec .loopOpen (load [0x5B])) (fun t => t.runState == .fault) = true ∧
    answers (exec .loopClose { load [0x5D] with tape := [(0, 1)] }) (fun t => t.runState == .fault) = true ∧
    answers (exec .input (answered [0x2C] .err .ok)) (fun t => t.runState == .fault) = true ∧
    answers (exec .input (answered [0x2C] .eof .err)) (fun t => t.runState == .fault) = true ∧
    answers (exec .output (answered [0x2E] .eof .err)) (fun t => t.runState == .fault) = true := by decide

/-- Each cause, OUT_ERROR of both instructions; the `,` whose echo failed has stored its byte. -/
theorem witness_FaultEntryIsPrecise :
    (answered [0x2C] (.byte 7) .err).runState = .running ∧
    answers (exec .input (answered [0x2C] (.byte 7) .err)) (fun t => t.faultCause == .outError && t.cell 0 == 7) = true ∧
    answers (exec .output (answered [0x2E] .eof .err)) (fun t => t.faultCause == .outError) = true ∧
    answers (exec .input (answered [0x2C] .err .ok)) (fun t => t.faultCause == .inError) = true ∧
    answers (exec .loopOpen (load [0x5B])) (fun t => t.faultCause == .unmatchedOpen) = true ∧
    answers (exec .loopClose { load [0x5D] with tape := [(0, 1)] }) (fun t => t.faultCause == .unmatchedClose) = true := by
  decide

theorem witness_StoppedOrWaitingBlockKeepsItsState :
    Pins.idle.rst = false ∧ ({ load [] with runState := .halted } : State).runState ≠ .running ∧
    answers (clockEdge Pins.idle { load [] with runState := .halted }) (fun _ => true) = true ∧
    ({ load [0x2C] with phase := .waitIn } : State).runState = .running ∧ Pins.idle.inValid = false ∧
    ({ load [0x2E] with phase := .waitOut } : State).runState = .running ∧ Pins.idle.outReady = false := by decide

theorem witness_RunStateFollowsItsTransitions :
    (load [0x61]).runState = .running ∧ (load [0x61]).phase = .exec ∧
    answers (step (load [])) (fun t => t.runState == .halted) = true ∧
    answers (step (load [0x5B])) (fun t => t.runState == .fault) = true ∧
    answers (step { load [] with runState := .fault }) (fun t => t.runState == .fault) = true ∧
    answers (clockEdge Pins.idle (load [])) (fun t => t.runState == .halted) = true ∧
    answers (clockEdge Pins.idle { load [] with runState := .halted }) (fun t => t.runState == .halted) = true ∧
    answers (clockEdge { Pins.idle with rst := true } { load [] with runState := .fault })
      (fun t => t.runState == .running) = true := by decide

theorem witness_ResetSetsEveryRegister :
    (Pins.writeByte 0 7).rst = true ∧ (Pins.writeByte 0 7).plenWe = false ∧ (Pins.writeLength 1).progWe = false := by decide

theorem witness_ExecutionStartsAtTheFirstByte : 0 < (load [0x2B]).plen := by decide

/-- A run aborted in the middle of a scan, beside the same machine not yet started. -/
theorem witness_ResetAbortsAnyRun :
    ({ Pins.idle with rst := true } : Pins).rst = true ∧
    ({ load [0x5B] with phase := .scanFwd, sj := 1, depth := 1, tape := [(2, 2)] } : State).prog = (load [0x5B]).prog ∧
    ({ load [0x5B] with phase := .scanFwd, sj := 1, depth := 1, tape := [(2, 2)] } : State).plen = (load [0x5B]).plen := by
  decide

theorem witness_RerunAfterResetIsRepeatable :
    answers (steps 2 (hwReset (load [0x2B]))) (fun t => t.cell 0 == 1 && t.runState == .halted) = true := by decide

theorem witness_LoadPortWritesOnlyWhenAccepted :
    (Pins.writeByte 63 7).rst = true ∧ (Pins.writeByte 63 7).progAddr < small.progMax ∧
    ({ load [] with runState := .halted } : State).runState ≠ .running ∧ (load []).runState = .running ∧
    answers (clockEdge Pins.idle (load [])) (fun _ => true) = true := by decide

theorem witness_BootLoadsTheProgram : ([0x2B, 0x2E] : List Byte).length ≤ (load []).cfg.progMax := by decide

/-- A failure, an end of input and a byte. -/
theorem witness_InputResponsePriority :
    (Pins.answering .err .ok).inValid = true ∧ (Pins.answering .err .ok).inErr = true ∧
    (Pins.answering .eof .ok).inErr = false ∧ (Pins.answering .eof .ok).inEof = true ∧
    (Pins.answering (.byte 4) .ok).inErr = false ∧ (Pins.answering (.byte 4) .ok).inEof = false := by decide

/-- The least build, and a program that fills its memory. -/
theorem witness_LaunchedMachineMeetsTheInvariant :
    Config.valid { tapeCap := 1, progMax := 1, eotIsEof := true } ∧ ([0x3E] : List Byte).length ≤ 1 := by decide

theorem witness_StepKeepsTheInvariant :
    MachineInv (load [0x2B]) ∧ answers (step (load [0x2B])) (fun t => t.cell 0 == 1) = true :=
  ⟨inv_load_cellInc, by decide⟩

theorem witness_ClockEdgeKeepsTheInvariant :
    MachineInv (load [0x2B]) ∧ answers (clockEdge Pins.idle (load [0x2B])) (fun t => t.cell 0 == 1) = true :=
  ⟨inv_load_cellInc, by decide⟩

theorem witness_StepsStayAtBoundariesInsideTheProgram :
    (load [0x2B]).phase = .exec ∧ (load [0x2B]).ip ≤ (load [0x2B]).plen ∧
    answers (steps 2 (load [0x2B])) (fun t => t.ip == t.plen) = true := by decide

/-- The waiting phase, and a state outside it. -/
theorem witness_PortsShowPhaseAndStatus :
    ({ load [0x2E] with phase := .waitOut, obuf := 9 } : State).phase = .waitOut ∧ (load [0x2E]).phase ≠ .waitOut := by
  decide

/-- An answered transfer of each of the two, the second with a failed echo. -/
theorem witness_TransfersLeaveTheirByteInObuf :
    answers (exec .output (answered [0x2E] .eof .ok)) (fun t => t.trace == [] ++ [.out 0 .ok]) = true ∧
    answers (exec .input (answered [0x2C] (.byte 7) .err)) (fun t => t.trace == [] ++ [.inp (.byte 7), .out 7 .err]) = true := by
  decide

/-- A forward scan in progress, with the invariant; the build's data-pointer width at its least, 1, where it holds one
cell. -/
theorem witness_RegistersFitTheirWidths :
    MachineInv { load [0x5B, 0x5B, 0x5D] with phase := .scanFwd, sj := 2, depth := 2 } ∧
    dpWidth { small with tapeCap := 1 } = 1 ∧ dpWidth small = 3 ∧ ipWidth small = 7 := by
  refine ⟨?_, by decide, by decide, by decide⟩
  constructor
  case phase_fits => exact ⟨rfl, by decide, by decide, by decide, by decide⟩
  all_goals decide

theorem witness_MultiCycleBuildRefinesTheAtomicStep :
    MachineInv (answered [0x2C] (.byte 65) .ok) ∧ Ready (answered [0x2C] (.byte 65) .ok) ∧
    (answered [0x2C] (.byte 65) .ok).inQ = .byte 65 :: [] ∧ (answered [0x2C] (.byte 65) .ok).outQ = .ok :: [] := by
  refine ⟨?_, ⟨rfl, rfl, by decide⟩, rfl, rfl⟩
  constructor <;> trivial

end Sys2Proof.Tests
end

namespace Sys2Proof.Machine

/-! PROOF. 20_memory.md R33: the program is read only while the block runs. Each operation that ends an instruction keeps
the program; then each instruction, each cycle of the multi-cycle build, and the step and the clock edge made of them. -/

/-- `t` holds the program memory, the program length and the build of `s`. -/
def KeepsProgram (s t : State) : Prop := t.prog = s.prog ∧ t.plen = s.plen ∧ t.cfg = s.cfg

theorem keepsProgram_refl (s : State) : KeepsProgram s s := ⟨rfl, rfl, rfl⟩

/-! ### The shared operations -/

theorem keepsProgram_finishOutput {s t : State} (o : OutResp) (h : KeepsProgram s t) :
    KeepsProgram s (finishOutput o t) := by
  rw [finishOutput_eq]
  exact h

theorem keepsProgram_takeBracket (e : ScanEnd) (c : FaultCause) (s : State) : KeepsProgram s (takeBracket e c s) := by
  rw [takeBracket_eq]
  exact ⟨rfl, rfl, rfl⟩

/-! ### The instructions -/

theorem execOutput_keepsProgram {s t : State} (h : execOutput s = .next t) : KeepsProgram s t := by
  rcases execOutput_next h with ⟨-, rfl⟩ | ⟨o, q, -, -, rfl⟩
  · exact keepsProgram_refl _
  · exact keepsProgram_finishOutput o ⟨rfl, rfl, rfl⟩

theorem execInput_keepsProgram {s t : State} (h : execInput s = .next t) : KeepsProgram s t := by
  rcases execInput_next h with ⟨rfl, -⟩ | ⟨q, -, rfl⟩ | ⟨r, q, v, o, q', -, -, -, -, rfl⟩
  · exact keepsProgram_refl _
  · exact ⟨rfl, rfl, rfl⟩
  · exact keepsProgram_finishOutput o ⟨rfl, rfl, rfl⟩

theorem execLoopOpen_keepsProgram {s t : State} (h : execLoopOpen s = .next t) : KeepsProgram s t := by
  obtain ⟨-, ⟨-, rfl⟩ | ⟨-, rfl⟩⟩ := execLoopOpen_next h
  · exact keepsProgram_takeBracket _ _ s
  · exact ⟨rfl, rfl, rfl⟩

theorem execLoopClose_keepsProgram {s t : State} (h : execLoopClose s = .next t) : KeepsProgram s t := by
  obtain ⟨-, ⟨-, rfl⟩ | ⟨-, rfl⟩⟩ := execLoopClose_next h
  · exact keepsProgram_takeBracket _ _ s
  · exact ⟨rfl, rfl, rfl⟩

theorem exec_keepsProgram {i : Instr} {s t : State} (h : exec i s = .next t) : KeepsProgram s t := by
  cases i with
  | ptrInc => obtain rfl := execPtrInc_next h; exact ⟨rfl, rfl, rfl⟩
  | ptrDec => obtain rfl := execPtrDec_next h; exact ⟨rfl, rfl, rfl⟩
  | cellInc => obtain ⟨-, rfl⟩ := execCellInc_next h; exact ⟨rfl, rfl, rfl⟩
  | cellDec => obtain ⟨-, rfl⟩ := execCellDec_next h; exact ⟨rfl, rfl, rfl⟩
  | output => exact execOutput_keepsProgram h
  | input => exact execInput_keepsProgram h
  | loopOpen => exact execLoopOpen_keepsProgram h
  | loopClose => exact execLoopClose_keepsProgram h
  | nop b => obtain rfl := execNop_next (b := b) h; exact ⟨rfl, rfl, rfl⟩

/-! ### The cycles of the multi-cycle build -/

theorem keepsProgram_scanFwdCycle (s : State) : KeepsProgram s (scanFwdCycle s) := by
  unfold scanFwdCycle
  split
  · exact ⟨rfl, rfl, rfl⟩
  · dsimp only
    split <;> exact ⟨rfl, rfl, rfl⟩

theorem keepsProgram_scanBwdCycle (s : State) : KeepsProgram s (scanBwdCycle s) := by
  unfold scanBwdCycle
  dsimp only
  split
  · exact ⟨rfl, rfl, rfl⟩
  · split <;> exact ⟨rfl, rfl, rfl⟩

theorem keepsProgram_beginBackward (s : State) : KeepsProgram s (beginBackward s) := by
  unfold beginBackward
  split <;> exact ⟨rfl, rfl, rfl⟩

theorem acceptInput_keepsProgram {r : InResp} {s t : State} (h : acceptInput r s = .next t) : KeepsProgram s t := by
  rcases acceptInput_next h with ⟨-, rfl⟩ | ⟨v, -, -, rfl⟩ <;> exact ⟨rfl, rfl, rfl⟩

theorem keepsProgram_acceptOutput (o : OutResp) (s : State) : KeepsProgram s (acceptOutput o s) :=
  keepsProgram_finishOutput o ⟨rfl, rfl, rfl⟩

theorem beginCycle_keepsProgram {s t : State} (h : beginCycle s = .next t) : KeepsProgram s t := by
  rcases beginCycle_next h with
    ⟨-, rfl⟩ | ⟨-, ⟨-, rfl | rfl | rfl⟩ | rfl | rfl | ⟨i, -, -, -, -, hexec⟩⟩
  case inr.inl.inr.inr => exact keepsProgram_beginBackward s
  case inr.inr.inr.inr => exact exec_keepsProgram hexec
  all_goals exact ⟨rfl, rfl, rfl⟩

theorem cycle_keepsProgram {rin : Option InResp} {rout : Option OutResp} {s t : State}
    (h : cycle rin rout s = .next t) : KeepsProgram s t := by
  rcases cycle_next h with
    ⟨-, hbegin⟩ | ⟨-, rfl⟩ | ⟨-, rfl⟩ | ⟨-, rfl⟩ | ⟨-, r, -, hin⟩ | ⟨-, o, -, rfl⟩
  · exact beginCycle_keepsProgram hbegin
  · exact keepsProgram_scanFwdCycle s
  · exact keepsProgram_scanBwdCycle s
  · exact keepsProgram_refl _
  · exact acceptInput_keepsProgram hin
  · exact keepsProgram_acceptOutput o s

/-! ### The step -/

theorem boundaryStep_keepsProgram {s t : State} (h : boundaryStep s = .next t) : KeepsProgram s t := by
  rcases Nat.lt_or_ge s.ip s.plen with hlt | hge
  · rw [boundaryStep_of_lt hlt] at h
    exact exec_keepsProgram h
  · rw [boundaryStep_of_ge hge] at h
    cases h
    exact ⟨rfl, rfl, rfl⟩

/-- A step of a RUNNING block is a boundary step, or a cycle of the block with answers taken off the host's queues. -/
theorem midStep_next {s t : State} (h : midStep s = .next t) :
    (s.phase = .exec ∧ boundaryStep s = .next t) ∨
    (s.phase ≠ .exec ∧ ∃ rin rout qi qo, cycle rin rout (s.withHost qi qo) = .next t) := by
  unfold midStep at h
  split at h <;> rename_i hp
  · exact .inl ⟨hp, h⟩
  all_goals exact .inr ⟨by simp [hp], _, _, _, _, h⟩

theorem midStep_keepsProgram {s t : State} (h : midStep s = .next t) : KeepsProgram s t := by
  rcases midStep_next h with ⟨-, hstep⟩ | ⟨-, rin, rout, qi, qo, hcycle⟩
  · exact boundaryStep_keepsProgram hstep
  · have hkeep : KeepsProgram (s.withHost qi qo) t := cycle_keepsProgram hcycle
    exact hkeep

theorem step_keepsProgram {s t : State} (h : step s = .next t) : KeepsProgram s t := by
  cases hr : s.runState with
  | running =>
    rw [step_of_running hr] at h
    exact midStep_keepsProgram h
  | halted =>
    rw [step_of_halted hr] at h
    cases h
    exact keepsProgram_refl s
  | fault =>
    rw [step_of_fault hr] at h
    cases h
    exact keepsProgram_refl s

/-- Settles O28: an instruction, a step and an edge of a RUNNING block each keep the program; the edge never reaches the
load port, being one cycle. -/
theorem programIsReadOnlyWhileRunning : Obligations.ProgramIsReadOnlyWhileRunning := by
  refine ⟨fun _ _ _ => exec_keepsProgram, fun _ _ => step_keepsProgram, fun p s t hrst hrun hedge => ?_⟩
  rw [clockEdge_of_running hrst hrun] at hedge
  exact cycle_keepsProgram hedge

/-! PROOF. 20_memory.md R44: the priority among an input transfer's responses. -/

theorem inResponse_of_valid {p : Pins} (h : p.inValid = true) :
    p.inResponse = some (if p.inErr then .err else if p.inEof then .eof else .byte p.inData) := if_pos h

/-- Settles O39: the response's two tests are in the order of R44. -/
theorem inputResponsePriority : Obligations.InputResponsePriority := by
  intro p hvalid
  rw [inResponse_of_valid hvalid]
  refine ⟨fun herr => ?_, fun herr heof => ?_, fun herr heof => ?_⟩
  · simp [herr]
  · simp [herr, heof]
  · simp [herr, heof]

end Sys2Proof.Machine

namespace Sys2Proof.Machine

/-! PROOF. 30_encoding.md R59, R61: what the decoder answers outside the opcode table, and the halt check. -/

/-- The last arm of R59: the bytes outside the opcode table, and no others, are NOPs. -/
theorem decodeByte_eq_nop_iff {b : Byte} : decodeByte b = .nop b ↔ b ∉ instructionBytes := by
  constructor
  · intro hnop hmem
    have htable : ∀ c ∈ instructionBytes, decodeByte c ≠ .nop c := by decide
    exact htable b hmem hnop
  · intro hmem
    simp only [instructionBytes, List.mem_cons, List.not_mem_nil, or_false, not_or] at hmem
    simp only [decodeByte, hmem, if_false]

/-- Settles O1: each instruction comes from its own byte alone, and a byte outside the table from none of them. -/
theorem decoderFollowsTheOpcodeMap : Obligations.DecoderFollowsTheOpcodeMap :=
  ⟨decodeByte_eq_ptrInc.2 rfl, decodeByte_eq_ptrDec.2 rfl, decodeByte_eq_cellInc.2 rfl, decodeByte_eq_cellDec.2 rfl,
    decodeByte_eq_output.2 rfl, decodeByte_eq_input.2 rfl, decodeByte_eq_loopOpen.2 rfl, decodeByte_eq_loopClose.2 rfl,
    fun _ => decodeByte_eq_nop_iff.2⟩

/-- R61: at a step boundary past the program, a step of a RUNNING block is the halt. -/
theorem step_of_plen_le_ip {s : State} (hrun : s.runState = .running) (hphase : s.phase = .exec)
    (hend : s.plen ≤ s.ip) : step s = .next (halt s) :=
  calc step s = midStep s := step_of_running hrun
    _ = boundaryStep s := midStep_of_exec hphase
    _ = .next (halt s) := boundaryStep_of_ge hend

/-- Settles O6: the halt check is the whole step there; an empty program is past its end at the reset's `ip`, 0. -/
theorem haltCheckComesBeforeEveryFetch : Obligations.HaltCheckComesBeforeEveryFetch := by
  refine ⟨fun _ => step_of_plen_le_ip, fun s hempty => ?_⟩
  have hend : (hwReset s).plen ≤ (hwReset s).ip := by simp [hempty]
  exact step_of_plen_le_ip (hwReset_runState s) (hwReset_phase s) hend

end Sys2Proof.Machine

namespace Sys2Proof.Machine

/-! PROOF. 40_pointer.md R65, R66: the pointer moves. -/

/-! ### An instruction executed many times -/

/-- Along states each of which `i` takes to the next, `n` executions of `i` lead `n` states on. -/
theorem execTimes_along {i : Instr} {f : Nat → State} (hf : ∀ m, exec i (f m) = .next (f (m + 1))) (n m : Nat) :
    execTimes i n (f m) = .next (f (m + n)) := by
  induction n generalizing m with
  | zero => rfl
  | succ n ih =>
    calc execTimes i (n + 1) (f m) = execTimes i n (f (m + 1)) := by simp only [execTimes, hf]
      _ = .next (f (m + 1 + n)) := ih (m + 1)
      _ = .next (f (m + (n + 1))) := by rw [Nat.add_right_comm, Nat.add_assoc]

/-- `s` after `n` moves of the pointer by `k` cells each, round the tape; each takes one instruction. -/
def State.moved (k : Nat) (s : State) (n : Nat) : State :=
  { s with dp := (s.dp + n * k) % s.cfg.tapeCap, ip := s.ip + n }

theorem State.moved_zero {s : State} (k : Nat) (h : s.dp < s.cfg.tapeCap) : s.moved k 0 = s := by
  simp [State.moved, Nat.mod_eq_of_lt h]

/-- A whole number of times round the tape, whatever the size of a move. -/
theorem State.moved_tapeCap {s : State} (k : Nat) (h : s.dp < s.cfg.tapeCap) :
    s.moved k s.cfg.tapeCap = { s with ip := s.ip + s.cfg.tapeCap } := by
  simp [State.moved, Nat.mod_eq_of_lt h]

/-- An instruction that moves the pointer by `k` cells modulo `TAPE_CAP` brings it back in `TAPE_CAP` executions. -/
theorem execTimes_tapeCap_of_moves {i : Instr} {k : Config → Nat}
    (hmove : ∀ t : State, t.dp < t.cfg.tapeCap →
      exec i t = .next { t with dp := (t.dp + k t.cfg) % t.cfg.tapeCap, ip := t.ip + 1 })
    {s : State} (h : s.dp < s.cfg.tapeCap) :
    execTimes i s.cfg.tapeCap s = .next { s with ip := s.ip + s.cfg.tapeCap } := by
  have hstep (m : Nat) : exec i (s.moved (k s.cfg) m) = .next (s.moved (k s.cfg) (m + 1)) := by
    have hlt : (s.moved (k s.cfg) m).dp < s.cfg.tapeCap := Nat.mod_lt _ (by omega)
    rw [hmove _ hlt]
    simp [State.moved, Nat.mod_add_mod, Nat.add_mul, Nat.add_assoc]
  have hround := execTimes_along hstep s.cfg.tapeCap 0
  rwa [Nat.zero_add, State.moved_zero _ h, State.moved_tapeCap _ h] at hround

/-! ### PTR_INC -/

theorem exec_ptrInc (s : State) : exec .ptrInc s = .next { s with dp := dpNext s.cfg s.dp, ip := s.ip + 1 } := rfl

/-- R65 "equivalently": the compare with the last index is the remainder. -/
theorem dpNext_eq_mod {c : Config} {dp : Nat} (h : dp < c.tapeCap) : dpNext c dp = (dp + 1) % c.tapeCap := by
  unfold dpNext
  split
  next hlast =>
    have hcap : dp + 1 = c.tapeCap := by omega
    rw [hcap, Nat.mod_self]
  next hinner => exact (Nat.mod_eq_of_lt (by omega)).symm

theorem exec_ptrInc_mod (s : State) (h : s.dp < s.cfg.tapeCap) :
    exec .ptrInc s = .next { s with dp := (s.dp + 1) % s.cfg.tapeCap, ip := s.ip + 1 } := by
  rw [exec_ptrInc, dpNext_eq_mod h]

/-- Settles O9: R65's compare is the move by 1 modulo `TAPE_CAP`, so `TAPE_CAP` of them go once round the tape. -/
theorem ptrIncMovesOneCellWithWraparound : Obligations.PtrIncMovesOneCellWithWraparound :=
  ⟨decodeByte_eq_ptrInc.2 rfl, exec_ptrInc, exec_ptrInc_mod,
    fun _ => execTimes_tapeCap_of_moves (k := fun _ => 1) exec_ptrInc_mod⟩

/-! ### PTR_DEC -/

theorem exec_ptrDec (s : State) : exec .ptrDec s = .next { s with dp := dpPrev s.cfg s.dp, ip := s.ip + 1 } := rfl

/-- R66 "equivalently": a move back is a move on by all cells but one. -/
theorem dpPrev_eq_mod {c : Config} {dp : Nat} (h : dp < c.tapeCap) :
    dpPrev c dp = (dp + (c.tapeCap - 1)) % c.tapeCap := by
  unfold dpPrev
  split
  next hzero =>
    rw [hzero, Nat.zero_add]
    exact (Nat.mod_eq_of_lt (by omega)).symm
  next hpos =>
    have hround : dp + (c.tapeCap - 1) = dp - 1 + c.tapeCap := by omega
    rw [hround, Nat.add_mod_right]
    exact (Nat.mod_eq_of_lt (by omega)).symm

theorem exec_ptrDec_mod (s : State) (h : s.dp < s.cfg.tapeCap) :
    exec .ptrDec s = .next { s with dp := (s.dp + (s.cfg.tapeCap - 1)) % s.cfg.tapeCap, ip := s.ip + 1 } := by
  rw [exec_ptrDec, dpPrev_eq_mod h]

/-- Settles O10: R66's compare is the move by `TAPE_CAP - 1` modulo `TAPE_CAP`, so `TAPE_CAP` of them go a whole number of
times round the tape. -/
theorem ptrDecMovesOneCellWithWraparound : Obligations.PtrDecMovesOneCellWithWraparound := by
  refine ⟨decodeByte_eq_ptrDec.2 rfl, exec_ptrDec, fun s h => ?_,
    fun _ => execTimes_tapeCap_of_moves (k := fun c => c.tapeCap - 1) exec_ptrDec_mod⟩
  have hcap : 1 ≤ s.cfg.tapeCap := by omega
  rw [exec_ptrDec_mod s h, Nat.add_sub_assoc hcap]

end Sys2Proof.Machine

namespace Sys2Proof.Machine

/-! PROOF. 41_cell_alu.md R67, R68, R69: the byte ALU and the cell instructions. -/

/-! ### The byte ALU -/

theorem toNat_aluInc (v : Byte) : (aluInc v).toNat = (v.toNat + 1) % 256 := by
  simp [aluInc]

theorem toNat_aluDec (v : Byte) : (aluDec v).toNat = (v.toNat + 255) % 256 := by
  simp [aluDec]

/-- `ALU_INC` is the sum of bytes, which wraps of itself. -/
theorem aluInc_eq_add (v : Byte) : aluInc v = v + 1 :=
  BitVec.eq_of_toNat_eq (toNat_aluInc v)

/-- `ALU_DEC` as a sum: 255 is the byte that takes one off. -/
theorem aluDec_eq_add (v : Byte) : aluDec v = v + 255 :=
  BitVec.eq_of_toNat_eq (toNat_aluDec v)

/-- Settles O11: a byte is below 256, so `v + 255` passes 256 for every `v` but 0, and the remainder takes 256 off. -/
theorem byteAluIsModulo256 : Obligations.ByteAluIsModulo256 := by
  intro v
  have hdec := toNat_aluDec v
  have hbyte : v.toNat < 256 := v.isLt
  refine ⟨toNat_aluInc v, hdec, fun hzero => ?_, fun hpos => ?_, ?_⟩
  · omega
  · omega
  · rw [aluZero_iff, ← BitVec.toNat_inj]
    rfl

/-! ### Writes to one cell of a canonical tape -/

/-- The last write to a cell is the one that counts. -/
theorem tapeWrite_tapeWrite {bound a : Nat} {m : Memory} (h : a < bound) (hm : m.wf bound tapeBlank = true)
    (v w : Byte) : tapeWrite (tapeWrite m a v) a w = tapeWrite m a w := by
  refine tape_ext (tapeWrite_wf w h (tapeWrite_wf v h hm)) (tapeWrite_wf w h hm) fun b => ?_
  by_cases hb : b = a
  · rw [hb, tapeByte_tapeWrite_self, tapeByte_tapeWrite_self]
  · rw [tapeByte_tapeWrite_ne hb, tapeByte_tapeWrite_ne hb, tapeByte_tapeWrite_ne hb]

/-- A cell written with the byte it holds leaves the tape alone. -/
theorem tapeWrite_tapeByte_self {bound a : Nat} {m : Memory} (h : a < bound) (hm : m.wf bound tapeBlank = true) :
    tapeWrite m a (tapeByte m a) = m := by
  refine tape_ext (tapeWrite_wf _ h hm) hm fun b => ?_
  by_cases hb : b = a
  · rw [hb, tapeByte_tapeWrite_self]
  · rw [tapeByte_tapeWrite_ne hb]

/-! ### A byte added to the current cell -/

/-- `s` after `n` additions of `k` to its current cell; each takes one instruction. -/
def State.added (k : Byte) (s : State) (n : Nat) : State :=
  { s with tape := tapeWrite s.tape s.dp (s.cell s.dp + BitVec.ofNat 8 n * k), ip := s.ip + n }

theorem State.added_zero {s : State} (k : Byte) (h : s.dp < s.cfg.tapeCap)
    (hwf : s.tape.wf s.cfg.tapeCap tapeBlank = true) : s.added k 0 = s := by
  simp [State.added, State.cell, tapeWrite_tapeByte_self h hwf]

/-- 256 additions of any byte add nothing, since 256 is the byte 0. -/
theorem State.added_256 {s : State} (k : Byte) (h : s.dp < s.cfg.tapeCap)
    (hwf : s.tape.wf s.cfg.tapeCap tapeBlank = true) : s.added k 256 = { s with ip := s.ip + 256 } := by
  have hbyte : BitVec.ofNat 8 256 = 0 := rfl
  simp [State.added, State.cell, hbyte, tapeWrite_tapeByte_self h hwf]

/-- One more addition, to the cell as `n` of them left it. -/
theorem State.added_added_one {s : State} (k : Byte) (h : s.dp < s.cfg.tapeCap)
    (hwf : s.tape.wf s.cfg.tapeCap tapeBlank = true) (n : Nat) : (s.added k n).added k 1 = s.added k (n + 1) := by
  have hsum (v : Byte) : v + BitVec.ofNat 8 n * k + k = v + BitVec.ofNat 8 (n + 1) * k := by
    rw [BitVec.ofNat_add, add_mul, add_assoc]
    simp
  simp [State.added, State.cell, tapeWrite_tapeWrite h hwf, hsum, add_assoc]

theorem State.cell_added_one_dp (k : Byte) (s : State) : (s.added k 1).cell s.dp = s.cell s.dp + k := by
  simp [State.added, State.cell]

/-- Additions to the current cell leave every other cell alone. -/
theorem State.cell_added_ne (k : Byte) (s : State) (n : Nat) {a : Nat} (h : a ≠ s.dp) :
    (s.added k n).cell a = s.cell a :=
  tapeByte_tapeWrite_ne h _ _

/-- An instruction that adds a byte to the current cell gives a canonical tape back in 256 executions. -/
theorem execTimes_256_of_adds {i : Instr} {k : Byte}
    (hadd : ∀ t : State, t.dp < t.cfg.tapeCap → exec i t = .next (t.added k 1))
    {s : State} (h : s.dp < s.cfg.tapeCap) (hwf : s.tape.wf s.cfg.tapeCap tapeBlank = true) :
    execTimes i 256 s = .next { s with ip := s.ip + 256 } := by
  have hstep (n : Nat) : exec i (s.added k n) = .next (s.added k (n + 1)) := by
    rw [hadd (s.added k n) h, State.added_added_one k h hwf]
  have hround := execTimes_along hstep 256 0
  rwa [Nat.zero_add, State.added_zero k h hwf, State.added_256 k h hwf] at hround

/-! ### CELL_INC -/

theorem exec_cellInc {s : State} (h : s.dp < s.cfg.tapeCap) : exec .cellInc s = .next (s.added 1 1) := by
  calc exec .cellInc s = execCellInc s := rfl
    _ = .next (advance { s with tape := tapeWrite s.tape s.dp (aluInc (s.cell s.dp)) }) := execCellInc_of_lt h
    _ = .next (s.added 1 1) := by rw [aluInc_eq_add]; rfl

/-- Settles O12: CELL_INC adds 1 to the current cell, so 256 of them add nothing. -/
theorem cellIncAddsOneModulo256 : Obligations.CellIncAddsOneModulo256 := by
  refine ⟨decodeByte_eq_cellInc.2 rfl, fun s h => ⟨s.added 1 1, exec_cellInc h, rfl, ?_, ?_⟩,
    fun _ => execTimes_256_of_adds (k := 1) fun _ => exec_cellInc⟩
  · rw [State.cell_added_one_dp, ← aluInc_eq_add, toNat_aluInc]
  · exact fun _ => State.cell_added_ne 1 s 1

/-! ### CELL_DEC -/

theorem exec_cellDec {s : State} (h : s.dp < s.cfg.tapeCap) : exec .cellDec s = .next (s.added 255 1) := by
  calc exec .cellDec s = execCellDec s := rfl
    _ = .next (advance { s with tape := tapeWrite s.tape s.dp (aluDec (s.cell s.dp)) }) := execCellDec_of_lt h
    _ = .next (s.added 255 1) := by rw [aluDec_eq_add]; rfl

/-- Settles O13: CELL_DEC adds 255 to the current cell, so 256 of them add nothing. -/
theorem cellDecSubtractsOneModulo256 : Obligations.CellDecSubtractsOneModulo256 := by
  refine ⟨decodeByte_eq_cellDec.2 rfl, fun s h => ⟨s.added 255 1, exec_cellDec h, rfl, ?_, ?_⟩,
    fun _ => execTimes_256_of_adds (k := 255) fun _ => exec_cellDec⟩
  · rw [State.cell_added_one_dp, ← aluDec_eq_add, toNat_aluDec]
  · exact fun _ => State.cell_added_ne 255 s 1

end Sys2Proof.Machine

namespace Sys2Proof.Machine

/-! PROOF. 42_io.md R71 to R75: output and input. -/

/-! ### The two transfers, and the byte of a response -/

theorem inTransfer_eq (r : InResp) (s : State) :
    inTransfer r s = { s with inQ := s.inQ.tail, trace := s.trace ++ [.inp r] } := rfl

theorem outTransfer_eq (v : Byte) (o : OutResp) (s : State) :
    outTransfer v o s = { s with obuf := v, outQ := s.outQ.tail, trace := s.trace ++ [.out v o] } := rfl

/-- R73, R74: which byte each response stores; a failed transfer stores none. -/
theorem inValue_eq_some {c : Config} {r : InResp} {v : Byte} :
    inValue c r = some v ↔
      (r = .eof ∧ v = 0) ∨ ∃ b, r = .byte b ∧ v = if c.eotIsEof = true ∧ b = 0x04 then 0 else b := by
  cases r with
  | byte b => simpa [inValue] using eq_comm
  | eof => simpa [inValue] using eq_comm
  | err => simp [inValue]

/-! ### OUT -/

/-- R71 up to the end of the instruction, whatever the response. -/
theorem exec_output_of_answer {s : State} {o : OutResp} {q : List OutResp} (h : s.dp < s.cfg.tapeCap)
    (hq : s.outQ = o :: q) :
    exec .output s = .next (finishOutput o
      { s with obuf := s.cell s.dp, outQ := q, trace := s.trace ++ [.out (s.cell s.dp) o] }) := by
  calc exec .output s = execOutput s := rfl
    _ = .next (finishOutput o (outTransfer (s.cell s.dp) o s)) := execOutput_of_answer h hq
    _ = _ := by rw [outTransfer_eq, hq, List.tail_cons]

/-- Settles O14: the transfer is the same for both responses, and the end of the instruction tells them apart. -/
theorem outEmitsTheCurrentCell : Obligations.OutEmitsTheCurrentCell :=
  ⟨decodeByte_eq_output.2 rfl, fun _ _ h hq => ⟨_, exec_output_of_answer h hq, rfl⟩,
    fun _ _ h hq => ⟨_, exec_output_of_answer h hq, rfl⟩⟩

/-! ### IN -/

/-- `s` after the store and both transfers of a `,` that stores `v`, before the end of the instruction (R72). -/
def State.echoed (r : InResp) (v : Byte) (o : OutResp) (qi : List InResp) (qo : List OutResp) (s : State) : State :=
  { s with
    tape := tapeWrite s.tape s.dp v, obuf := v, inQ := qi, outQ := qo, trace := s.trace ++ [.inp r, .out v o] }

/-- R72 up to the end of the instruction, whatever the response to the echo. -/
theorem exec_input_of_answers {s : State} {r : InResp} {v : Byte} {o : OutResp} {qi : List InResp} {qo : List OutResp}
    (h : s.dp < s.cfg.tapeCap) (hqi : s.inQ = r :: qi) (hqo : s.outQ = o :: qo) (hv : inValue s.cfg r = some v) :
    exec .input s = .next (finishOutput o (s.echoed r v o qi qo)) := by
  calc exec .input s = execInput s := rfl
    _ = .next (finishOutput o (outTransfer v o { inTransfer r s with tape := tapeWrite s.tape s.dp v })) :=
      execInput_of_answers h hqi hv hqo
    _ = .next (finishOutput o (s.echoed r v o qi qo)) := by
      simp [inTransfer_eq, outTransfer_eq, State.echoed, hqi, hqo]

/-- The cell holds the stored value, also where its echo fails (R75). -/
theorem cell_finishOutput_echoed_dp (s : State) (r : InResp) (v : Byte) (o : OutResp) (qi : List InResp)
    (qo : List OutResp) : (finishOutput o (s.echoed r v o qi qo)).cell s.dp = v := by
  simp [finishOutput_eq, State.echoed, State.cell]

theorem cell_finishOutput_echoed_ne {s : State} {a : Nat} (ha : a ≠ s.dp) (r : InResp) (v : Byte) (o : OutResp)
    (qi : List InResp) (qo : List OutResp) : (finishOutput o (s.echoed r v o qi qo)).cell a = s.cell a := by
  simp [finishOutput_eq, State.echoed, State.cell, tapeByte_tapeWrite_ne ha]

/-- R72: a failed input transfer is the fault at once, and needs no answer to an echo. -/
theorem exec_input_of_err {s : State} {q : List InResp} (hq : s.inQ = .err :: q) :
    exec .input s = .next (raiseFault .inError { s with inQ := q, trace := s.trace ++ [.inp .err] }) := by
  calc exec .input s = execInput s := rfl
    _ = .next (raiseFault .inError (inTransfer .err s)) := by simp [execInput, hq, inValue]
    _ = _ := by rw [inTransfer_eq, hq, List.tail_cons]

/-- Settles O15: the stored value is `InValue` of the response, its echo's response decides the end of the instruction
alone, and a failed input transfer stores and echoes nothing. -/
theorem inStoresThenEchoes : Obligations.InStoresThenEchoes := by
  refine ⟨decodeByte_eq_input.2 rfl, ?echo_ok, ?echo_err, fun _ _ => exec_input_of_err⟩
  all_goals
    intro s r v qi qo h hqi hqo hr
    have hv : inValue s.cfg r = some v := inValue_eq_some.2 hr
    exact ⟨_, exec_input_of_answers h hqi hqo hv, rfl, cell_finishOutput_echoed_dp ..,
      fun _ ha => cell_finishOutput_echoed_ne ha ..⟩

end Sys2Proof.Machine

namespace Sys2Proof.Machine

/-! PROOF. 43_control_flow.md R77 to R83: the scans compute the matching bracket, and the bracket instructions. -/

/-! ### Searches for one index -/

/-- `k` is the least index in `[lo, hi)` with `P`. -/
def LeastIn (P : Nat → Prop) (lo hi k : Nat) : Prop :=
  lo ≤ k ∧ k < hi ∧ P k ∧ ∀ m, lo ≤ m → m < k → ¬ P m

/-- `k` is the greatest index below `hi` with `P`. -/
def GreatestBelow (P : Nat → Prop) (hi k : Nat) : Prop :=
  k < hi ∧ P k ∧ ∀ m, k < m → m < hi → ¬ P m

theorem isMatchFwd_iff_leastIn {p : Memory} {plen i k : Nat} :
    isMatchFwd p plen i k ↔ LeastIn (closesAt p i) (i + 1) plen k := Iff.rfl

theorem isMatchBwd_iff_greatestBelow {p : Memory} {i k : Nat} :
    isMatchBwd p i k ↔ GreatestBelow (opensAt p i) i k := Iff.rfl

theorem not_leastIn_of_le {P : Nat → Prop} {lo hi k : Nat} (h : hi ≤ lo) : ¬ LeastIn P lo hi k := by
  rintro ⟨hlo, hhi, -, -⟩
  omega

theorem leastIn_iff_of_pos {P : Nat → Prop} {lo hi k : Nat} (hlt : lo < hi) (hP : P lo) :
    LeastIn P lo hi k ↔ lo = k := by
  constructor
  · rintro ⟨hlo, -, -, hleast⟩
    by_contra hne
    exact hleast lo le_rfl (by omega) hP
  · rintro rfl
    exact ⟨le_rfl, hlt, hP, by omega⟩

theorem leastIn_iff_of_neg {P : Nat → Prop} {lo hi k : Nat} (hP : ¬ P lo) :
    LeastIn P lo hi k ↔ LeastIn P (lo + 1) hi k := by
  constructor
  · rintro ⟨hlo, hhi, hk, hleast⟩
    have hne : lo ≠ k := fun heq => hP (heq ▸ hk)
    exact ⟨by omega, hhi, hk, fun m hm => hleast m (by omega)⟩
  · rintro ⟨hlo, hhi, hk, hleast⟩
    refine ⟨by omega, hhi, hk, fun m hm hmk => ?_⟩
    rcases hm.eq_or_lt with rfl | hlt
    · exact hP
    · exact hleast m hlt hmk

theorem not_greatestBelow_zero {P : Nat → Prop} {k : Nat} : ¬ GreatestBelow P 0 k :=
  fun h => Nat.not_lt_zero k h.1

theorem greatestBelow_succ_iff_of_pos {P : Nat → Prop} {j k : Nat} (hP : P j) :
    GreatestBelow P (j + 1) k ↔ j = k := by
  constructor
  · rintro ⟨hk, -, hgreatest⟩
    by_contra hne
    exact hgreatest j (by omega) (by omega) hP
  · rintro rfl
    exact ⟨by omega, hP, by omega⟩

theorem greatestBelow_succ_iff_of_neg {P : Nat → Prop} {j k : Nat} (hP : ¬ P j) :
    GreatestBelow P (j + 1) k ↔ GreatestBelow P j k := by
  constructor
  · rintro ⟨hkj, hk, hgreatest⟩
    have hne : j ≠ k := fun heq => hP (heq ▸ hk)
    exact ⟨by omega, hk, fun m hkm hmj => hgreatest m hkm (by omega)⟩
  · rintro ⟨hkj, hk, hgreatest⟩
    refine ⟨by omega, hk, fun m hkm hmj => ?_⟩
    rcases (Nat.le_of_lt_succ hmj).eq_or_lt with rfl | hlt
    · exact hP
    · exact hgreatest m hkm hlt

/-! ### The scans, over the counts of R77 -/

/-- A forward scan's counter is the count of R77 at each index: one more byte moves both alike. -/
theorem fwdDepth_keeps_count {p : Memory} {i j d : Nat} (hij : i < j) (hd : 1 ≤ d)
    (hcount : 1 + opens p (i + 1) j = closes p (i + 1) j + d) :
    1 + opens p (i + 1) (j + 1) = closes p (i + 1) (j + 1) + fwdDepth (progByte p j) d := by
  rw [opens_succ_right p hij, closes_succ_right p hij, fwdDepth_eq]
  by_cases hopen : progByte p j = 0x5B
  · simp [hopen]
    omega
  · by_cases hclose : progByte p j = 0x5D
    · simp [hclose]
      omega
    · simp only [hopen, hclose, if_false]
      omega

/-- A backward scan's counter, likewise, for the range that grows at its left end. -/
theorem bwdDepth_keeps_count {p : Memory} {i j d : Nat} (hji : j < i) (hd : 1 ≤ d)
    (hcount : 1 + closes p (j + 1) i = opens p (j + 1) i + d) :
    1 + closes p j i = opens p j i + bwdDepth (progByte p j) d := by
  rw [opens_succ_left p hji, closes_succ_left p hji, bwdDepth_eq]
  by_cases hclose : progByte p j = 0x5D
  · simp [hclose]
    omega
  · by_cases hopen : progByte p j = 0x5B
    · simp [hopen]
      omega
    · simp only [hopen, hclose, if_false]
      omega

/-- From index `j` on, a forward scan with the counter of R77 finds the least index that closes the bracket at `i`. -/
theorem scanForward_found_eq_some {p : Memory} {i k : Nat} (left : Nat) {j d : Nat} (hij : i < j) (hd : 1 ≤ d)
    (hcount : 1 + opens p (i + 1) j = closes p (i + 1) j + d) :
    (scanForward p left j d).found = some k ↔ LeastIn (closesAt p i) j (j + left) k := by
  induction left generalizing j d with
  | zero => exact iff_of_false nofun (not_leastIn_of_le le_rfl)
  | succ left ih =>
    have hcount' := fwdDepth_keeps_count hij hd hcount
    have hclosesAt : closesAt p i j ↔ fwdDepth (progByte p j) d = 0 := by
      unfold closesAt
      omega
    unfold scanForward
    by_cases h0 : fwdDepth (progByte p j) d = 0
    · rw [leastIn_iff_of_pos (by omega) (hclosesAt.2 h0)]
      simp [h0]
    · have hend : j + (left + 1) = j + 1 + left := by omega
      rw [leastIn_iff_of_neg (mt hclosesAt.1 h0), hend, ← ih (by omega) (by omega) hcount']
      simp [h0]

/-- Below index `left`, a backward scan with the counter of R77 finds the greatest index that opens the bracket at
`i`. -/
theorem scanBackward_found_eq_some {p : Memory} {i k : Nat} {left d : Nat} (hle : left ≤ i) (hd : 1 ≤ d)
    (hcount : 1 + closes p left i = opens p left i + d) :
    (scanBackward p left d).found = some k ↔ GreatestBelow (opensAt p i) left k := by
  induction left generalizing d with
  | zero => exact iff_of_false nofun not_greatestBelow_zero
  | succ j ih =>
    have hcount' := bwdDepth_keeps_count hle hd hcount
    have hopensAt : opensAt p i j ↔ bwdDepth (progByte p j) d = 0 := by
      unfold opensAt
      omega
    unfold scanBackward
    by_cases h0 : bwdDepth (progByte p j) d = 0
    · rw [greatestBelow_succ_iff_of_pos (hopensAt.2 h0)]
      simp [h0]
    · rw [greatestBelow_succ_iff_of_neg (mt hopensAt.1 h0), ← ih (by omega) (by omega) hcount']
      simp [h0]

/-- R80 computes `MatchFwd` of R77; for a bracket at or past `plen` both are empty. -/
theorem forwardScan_found_eq_some {s : State} {i k : Nat} :
    (forwardScan s i).found = some k ↔ isMatchFwd s.prog s.plen i k := by
  unfold forwardScan
  rw [isMatchFwd_iff_leastIn,
    scanForward_found_eq_some _ (Nat.lt_succ_self i) le_rfl (by rw [opens_self, closes_self])]
  rcases Nat.le_total (i + 1) s.plen with hin | hout
  · rw [Nat.add_sub_cancel' hin]
  · exact iff_of_false (not_leastIn_of_le (by omega)) (not_leastIn_of_le hout)

/-- R81 computes `MatchBwd` of R77; at index 0 there is none. -/
theorem backwardScan_found_eq_some {s : State} {i k : Nat} :
    (backwardScan s i).found = some k ↔ isMatchBwd s.prog i k := by
  have hfound : (backwardScan s i).found = (scanBackward s.prog i 1).found := by
    cases i <;> rfl
  rw [hfound, isMatchBwd_iff_greatestBelow]
  exact scanBackward_found_eq_some le_rfl le_rfl (by rw [opens_self, closes_self])

theorem forwardScan_found_eq_none {s : State} {i : Nat} :
    (forwardScan s i).found = none ↔ ∀ k, ¬ isMatchFwd s.prog s.plen i k := by
  simp only [Option.eq_none_iff_forall_ne_some, ne_eq, forwardScan_found_eq_some]

theorem backwardScan_found_eq_none {s : State} {i : Nat} :
    (backwardScan s i).found = none ↔ ∀ k, ¬ isMatchBwd s.prog i k := by
  simp only [Option.eq_none_iff_forall_ne_some, ne_eq, backwardScan_found_eq_some]

/-! ### LOOP_OPEN -/

theorem exec_loopOpen_of_ne_zero {s : State} (h : s.dp < s.cfg.tapeCap) (hcell : s.cell s.dp ≠ 0) :
    exec .loopOpen s = .next { s with ip := s.ip + 1 } :=
  (execLoopOpen_of_lt h).trans (by rw [if_neg (mt aluZero_iff.1 hcell)]; rfl)

theorem exec_loopOpen_of_zero {s : State} (h : s.dp < s.cfg.tapeCap) (hcell : s.cell s.dp = 0) :
    exec .loopOpen s = .next (takeBracket (forwardScan s s.ip) .unmatchedOpen s) :=
  (execLoopOpen_of_lt h).trans (by rw [if_pos (aluZero_iff.2 hcell)])

/-- Settles O18: on a zero cell the bracket is taken, and its scan finds exactly `MatchFwd(ip)`. -/
theorem loopOpenSkipsOnZero : Obligations.LoopOpenSkipsOnZero := by
  refine ⟨decodeByte_eq_loopOpen.2 rfl, fun s h => ⟨exec_loopOpen_of_ne_zero h, fun hcell k hmatch => ?_,
    fun hcell hnone => ?_⟩⟩
  · rw [exec_loopOpen_of_zero h hcell, takeBracket_of_some _ s (forwardScan_found_eq_some.2 hmatch)]
    exact ⟨_, rfl, rfl⟩
  · rw [exec_loopOpen_of_zero h hcell, takeBracket_of_none _ s (forwardScan_found_eq_none.2 hnone)]
    exact ⟨_, rfl, rfl⟩

/-! ### LOOP_CLOSE -/

theorem exec_loopClose_of_zero {s : State} (h : s.dp < s.cfg.tapeCap) (hcell : s.cell s.dp = 0) :
    exec .loopClose s = .next { s with ip := s.ip + 1 } :=
  (execLoopClose_of_lt h).trans (by rw [if_pos (aluZero_iff.2 hcell)]; rfl)

theorem exec_loopClose_of_ne_zero {s : State} (h : s.dp < s.cfg.tapeCap) (hcell : s.cell s.dp ≠ 0) :
    exec .loopClose s = .next (takeBracket (backwardScan s s.ip) .unmatchedClose s) :=
  (execLoopClose_of_lt h).trans (by rw [if_neg (mt aluZero_iff.1 hcell)])

/-- Settles O19: on a non-zero cell the bracket is taken, and its scan finds exactly `MatchBwd(ip)`. -/
theorem loopCloseJumpsBackOnNonzero : Obligations.LoopCloseJumpsBackOnNonzero := by
  refine ⟨decodeByte_eq_loopClose.2 rfl, fun s h => ⟨exec_loopClose_of_zero h, fun hcell k hmatch => ?_,
    fun hcell hnone => ?_⟩⟩
  · rw [exec_loopClose_of_ne_zero h hcell, takeBracket_of_some _ s (backwardScan_found_eq_some.2 hmatch)]
    exact ⟨_, rfl, rfl⟩
  · rw [exec_loopClose_of_ne_zero h hcell, takeBracket_of_none _ s (backwardScan_found_eq_none.2 hnone)]
    exact ⟨_, rfl, rfl⟩

end Sys2Proof.Machine

namespace Sys2Proof.Machine

/-! PROOF. 44_noop.md R89: NOP changes `ip` alone, is inside the scan's reach without moving its counter, and a program of
NOPs alone runs through and halts. -/

/-! ### One NOP -/

theorem fwdDepth_of_not_mem {b : Byte} (h : b ∉ instructionBytes) (d : Nat) : fwdDepth b d = d := by
  simp only [fwdDepth, decodeByte_eq_nop_iff.2 h]

theorem bwdDepth_of_not_mem {b : Byte} (h : b ∉ instructionBytes) (d : Nat) : bwdDepth b d = d := by
  simp only [bwdDepth, decodeByte_eq_nop_iff.2 h]

theorem exec_nop (b : Byte) (s : State) : exec (.nop b) s = .next (advance s) := rfl

/-- R62: at a step boundary inside the program, a step is the fetched instruction. -/
theorem step_of_ready {s : State} (h : Ready s) : step s = exec (fetch s) s :=
  calc step s = midStep s := step_of_running h.running
    _ = boundaryStep s := midStep_of_exec h.boundary
    _ = exec (fetch s) s := boundaryStep_of_lt h.in_program

theorem step_of_code_not_mem {s : State} (h : Ready s) (hnop : s.code s.ip ∉ instructionBytes) :
    step s = .next (advance s) :=
  calc step s = exec (fetch s) s := step_of_ready h
    _ = exec (.nop (s.code s.ip)) s := by rw [fetch, decodeByte_eq_nop_iff.2 hnop]
    _ = .next (advance s) := exec_nop _ s

/-! ### A run over NOPs -/

theorem steps_zero (s : State) : steps 0 s = .next s := rfl

theorem steps_succ_of_step {s t : State} (n : Nat) (h : step s = .next t) : steps (n + 1) s = steps n t := by
  simp only [steps, h]

/-- From any step boundary with only NOPs ahead, `n` of them, the block takes each and then halts. -/
theorem steps_of_nops_ahead {n : Nat} {s : State} (hrun : s.runState = .running) (hphase : s.phase = .exec)
    (hend : s.ip + n = s.plen) (hnops : ∀ j, s.ip ≤ j → j < s.plen → s.code j ∉ instructionBytes) :
    steps (n + 1) s = .next { s with ip := s.plen, runState := .halted } := by
  induction n generalizing s with
  | zero =>
    have hip : s.ip = s.plen := hend
    have hstep : step s = .next (halt s) := step_of_plen_le_ip hrun hphase hip.ge
    calc steps (0 + 1) s = steps 0 (halt s) := steps_succ_of_step 0 hstep
      _ = .next { s with ip := s.ip, runState := .halted } := steps_zero (halt s)
      _ = .next { s with ip := s.plen, runState := .halted } := by rw [hip]
  | succ n ih =>
    have hlt : s.ip < s.plen := by omega
    have hstep : step s = .next (advance s) := step_of_code_not_mem ⟨hrun, hphase, hlt⟩ (hnops s.ip le_rfl hlt)
    have hend' : (advance s).ip + n = (advance s).plen := by
      rw [advance_ip, advance_plen]
      omega
    calc steps (n + 1 + 1) s = steps (n + 1) (advance s) := steps_succ_of_step (n + 1) hstep
      _ = .next { advance s with ip := (advance s).plen, runState := .halted } :=
        ih hrun hphase hend' fun j hj => hnops j (Nat.le_of_succ_le hj)

/-! ### A launched program -/

theorem progByte_programCells (i : Nat) (bytes : List Byte) {j : Nat} (h : j < bytes.length) :
    progByte (programCells i bytes) (i + j) = bytes[j] := by
  induction bytes generalizing i j with
  | nil => exact absurd h (Nat.not_lt_zero j)
  | cons b bs ih =>
    cases j with
    | zero => simp [progByte, programCells, Memory.find]
    | succ j =>
      have hfind : Memory.find (i + (j + 1)) (programCells i (b :: bs)) =
          Memory.find (i + (j + 1)) (programCells (i + 1) bs) := if_neg (by omega)
      have hidx : i + (j + 1) = i + 1 + j := by omega
      rw [progByte, hfind, ← progByte, hidx, ih (i + 1) (Nat.lt_of_succ_lt_succ h), List.getElem_cons_succ]

/-- A launched block holds its program (10_state.md R30). -/
theorem code_launch (c : Config) (bytes : List Byte) (qi : List InResp) (qo : List OutResp) {j : Nat}
    (h : j < bytes.length) : (launch c bytes qi qo).code j = bytes[j] := by
  have hcell := progByte_programCells 0 bytes h
  rwa [Nat.zero_add] at hcell

/-- Settles O23: a NOP is one `advance`, so a program of them is as many, and then the halt check is met. -/
theorem nopOnlyAdvances : Obligations.NopOnlyAdvances := by
  refine ⟨fun b hb => ⟨decodeByte_eq_nop_iff.2 hb, fun d => ⟨fwdDepth_of_not_mem hb d, bwdDepth_of_not_mem hb d⟩⟩,
    exec_nop, fun c bytes hnops => ?_⟩
  refine steps_of_nops_ahead (s := launch c bytes [] []) rfl rfl (Nat.zero_add bytes.length) fun j _ hj => ?_
  rw [code_launch c bytes [] [] hj]
  exact hnops _ (List.getElem_mem hj)

end Sys2Proof.Machine

namespace Sys2Proof.Machine

/-! PROOF. 60_exceptions.md R91, R93: the causes of a fault, and what fault entry leaves. Both are read off the five ways
an instruction enters FAULT. -/

/-! ### The ways into FAULT -/

/-- The rows of R91, with OUT_ERROR once for each of its instructions: an instruction, with what makes it fault in `s`, and
the state it leaves. -/
inductive FaultEntry (s : State) : Instr → State → Prop
  | unmatchedOpen (sj depth : Nat) (hcell : s.cell s.dp = 0) (hnone : ∀ k, ¬ isMatchFwd s.prog s.plen s.ip k) :
    FaultEntry s .loopOpen (raiseFault .unmatchedOpen { s with sj := sj, depth := depth })
  | unmatchedClose (sj depth : Nat) (hcell : s.cell s.dp ≠ 0) (hnone : ∀ k, ¬ isMatchBwd s.prog s.ip k) :
    FaultEntry s .loopClose (raiseFault .unmatchedClose { s with sj := sj, depth := depth })
  | inError {qi : List InResp} (hqi : s.inQ = .err :: qi) :
    FaultEntry s .input (raiseFault .inError (inTransfer .err s))
  | outError {qo : List OutResp} (hqo : s.outQ = .err :: qo) :
    FaultEntry s .output (raiseFault .outError (outTransfer (s.cell s.dp) .err s))
  | echoError {r : InResp} {v : Byte} {qi : List InResp} {qo : List OutResp} (hqi : s.inQ = r :: qi)
      (hv : inValue s.cfg r = some v) (hqo : s.outQ = .err :: qo) :
    FaultEntry s .input (raiseFault .outError (s.echoed r v .err qi qo))

/-- The end of `.` or `,` in a RUNNING state enters FAULT only for a failed output transfer. -/
theorem eq_err_of_finishOutput_fault {o : OutResp} {s : State}
    (hfault : (finishOutput o s).runState = .fault) (hrun : s.runState = .running) : o = .err := by
  cases o with
  | ok => simp [hrun] at hfault
  | err => rfl

/-- A bracket taken in a RUNNING state enters FAULT only where its scan found nothing. -/
theorem found_eq_none_of_takeBracket_fault {e : ScanEnd} {c : FaultCause} {s : State}
    (hfault : (takeBracket e c s).runState = .fault) (hrun : s.runState = .running) : e.found = none := by
  cases hfound : e.found with
  | none => rfl
  | some k =>
    rw [takeBracket_of_some c s hfound] at hfault
    simp [hrun] at hfault

/-- No fault was entered from a RUNNING state whose `run_state` is kept. -/
theorem not_fault_of_runState_eq {s t : State} (hrun : s.runState = .running) (hkeep : t.runState = s.runState) :
    t.runState ≠ .fault := by
  rw [hkeep, hrun]
  decide

section
variable {s t : State} (hrun : s.runState = .running) (hfault : t.runState = .fault)
include hrun hfault

theorem execOutput_faultEntry (h : execOutput s = .next t) : FaultEntry s .output t := by
  rcases execOutput_next h with ⟨-, rfl⟩ | ⟨o, qo, hqo, -, rfl⟩
  · exact absurd hfault (not_fault_of_runState_eq hrun rfl)
  · obtain rfl := eq_err_of_finishOutput_fault hfault hrun
    exact .outError hqo

theorem execInput_faultEntry (h : execInput s = .next t) : FaultEntry s .input t := by
  rcases execInput_next h with ⟨rfl, -⟩ | ⟨qi, hqi, rfl⟩ | ⟨r, qi, v, o, qo, hqi, hv, hqo, hd, rfl⟩
  · exact absurd hfault (not_fault_of_runState_eq hrun rfl)
  · exact .inError hqi
  · obtain rfl := eq_err_of_finishOutput_fault hfault hrun
    have hechoed := (execInput_of_answers hd hqi hv hqo).symm.trans (exec_input_of_answers hd hqi hqo hv)
    rw [Host.Outcome.next.inj hechoed]
    exact .echoError hqi hv hqo

theorem execLoopOpen_faultEntry (h : execLoopOpen s = .next t) : FaultEntry s .loopOpen t := by
  obtain ⟨-, ⟨hcell, rfl⟩ | ⟨-, rfl⟩⟩ := execLoopOpen_next h
  · have hfound := found_eq_none_of_takeBracket_fault hfault hrun
    rw [takeBracket_of_none _ s hfound]
    exact .unmatchedOpen _ _ hcell (forwardScan_found_eq_none.1 hfound)
  · exact absurd hfault (not_fault_of_runState_eq hrun rfl)

theorem execLoopClose_faultEntry (h : execLoopClose s = .next t) : FaultEntry s .loopClose t := by
  obtain ⟨-, ⟨hcell, rfl⟩ | ⟨-, rfl⟩⟩ := execLoopClose_next h
  · have hfound := found_eq_none_of_takeBracket_fault hfault hrun
    rw [takeBracket_of_none _ s hfound]
    exact .unmatchedClose _ _ hcell (backwardScan_found_eq_none.1 hfound)
  · exact absurd hfault (not_fault_of_runState_eq hrun rfl)

/-- R91: there is no other way into FAULT than a row of the table. -/
theorem exec_faultEntry {i : Instr} (h : exec i s = .next t) : FaultEntry s i t := by
  cases i with
  | ptrInc => obtain rfl := execPtrInc_next h; exact absurd hfault (not_fault_of_runState_eq hrun rfl)
  | ptrDec => obtain rfl := execPtrDec_next h; exact absurd hfault (not_fault_of_runState_eq hrun rfl)
  | cellInc => obtain ⟨-, rfl⟩ := execCellInc_next h; exact absurd hfault (not_fault_of_runState_eq hrun rfl)
  | cellDec => obtain ⟨-, rfl⟩ := execCellDec_next h; exact absurd hfault (not_fault_of_runState_eq hrun rfl)
  | output => exact execOutput_faultEntry hrun hfault h
  | input => exact execInput_faultEntry hrun hfault h
  | loopOpen => exact execLoopOpen_faultEntry hrun hfault h
  | loopClose => exact execLoopClose_faultEntry hrun hfault h
  | nop b => obtain rfl := execNop_next (b := b) h; exact absurd hfault (not_fault_of_runState_eq hrun rfl)

end

/-! ### What fault entry leaves -/

/-- R93: the registers that fault entry keeps. -/
theorem FaultEntry.frame {i : Instr} {s t : State} (h : FaultEntry s i t) :
    t = { s with
      runState := .fault, faultCause := t.faultCause, phase := .exec, tape := t.tape, sj := t.sj, depth := t.depth,
      obuf := t.obuf, inQ := t.inQ, outQ := t.outQ, trace := t.trace } := by
  cases h <;> rfl

theorem FaultEntry.faultCause_ne_noFault {i : Instr} {s t : State} (h : FaultEntry s i t) :
    t.faultCause ≠ .noFault := by
  cases h <;> exact nofun

/-- Only a `,` whose echo failed has written a cell, the one at `dp`. -/
theorem FaultEntry.eq_dp_of_cell_ne {i : Instr} {s t : State} (h : FaultEntry s i t) {a : Nat}
    (ha : t.cell a ≠ s.cell a) : i = .input ∧ t.faultCause = .outError ∧ a = s.dp := by
  cases h with
  | @echoError r v qi qo hqi hv hqo =>
    refine ⟨rfl, rfl, ?_⟩
    by_contra hne
    exact ha (cell_finishOutput_echoed_ne hne r v .err qi qo)
  | unmatchedOpen | unmatchedClose | inError | outError => exact absurd rfl ha

/-- The events of the faulting instruction are in the trace, its failed transfer's included. -/
theorem FaultEntry.trace_eq_append {i : Instr} {s t : State} (h : FaultEntry s i t) :
    ∃ es, t.trace = s.trace ++ es ∧
      (t.faultCause = .inError → es = [.inp .err]) ∧
      (t.faultCause = .outError →
        (i = .output ∧ es = [.out (s.cell s.dp) .err]) ∨
        (i = .input ∧ ∃ r v, inValue s.cfg r = some v ∧ es = [.inp r, .out v .err] ∧ t.cell s.dp = v)) ∧
      (t.faultCause = .unmatchedOpen ∨ t.faultCause = .unmatchedClose → es = []) := by
  cases h with
  | unmatchedOpen | unmatchedClose => exact ⟨[], (List.append_nil _).symm, nofun, nofun, fun _ => rfl⟩
  | inError => exact ⟨_, rfl, fun _ => rfl, nofun, by simp⟩
  | outError => exact ⟨_, rfl, nofun, fun _ => .inl ⟨rfl, rfl⟩, by simp⟩
  | @echoError r v qi qo hqi hv hqo =>
    have hcell := cell_finishOutput_echoed_dp s r v .err qi qo
    exact ⟨_, rfl, nofun, fun _ => .inr ⟨rfl, r, v, hv, rfl, hcell⟩, by simp⟩

/-- Settles O29: each way into FAULT is a row of R91's table, and none moves `ip`. -/
theorem faultCausesFollowTheTable : Obligations.FaultCausesFollowTheTable := by
  refine ⟨⟨rfl, rfl, rfl, rfl⟩, fun i s t hrun h hfault => ?_⟩
  have hentry := exec_faultEntry hrun hfault h
  refine ⟨by rw [hentry.frame], ?_⟩
  cases hentry with
  | unmatchedOpen _ _ hcell hnone => exact .inl ⟨rfl, rfl, hcell, hnone⟩
  | unmatchedClose _ _ hcell hnone => exact .inr (.inl ⟨rfl, rfl, hcell, hnone⟩)
  | inError hqi => exact .inr (.inr (.inl ⟨rfl, rfl, by rw [hqi, List.head?_cons]⟩))
  | outError hqo => exact .inr (.inr (.inr ⟨rfl, by rw [hqo, List.head?_cons], .inl rfl⟩))
  | echoError hqi hv hqo =>
    have hin : s.inQ.head? ≠ some .err := by
      rw [hqi, List.head?_cons]
      rintro ⟨⟩
      cases hv
    exact .inr (.inr (.inr ⟨rfl, by rw [hqo, List.head?_cons], .inr ⟨rfl, hin⟩⟩))

/-- Settles O30: each clause of R93 holds of every way into FAULT. -/
theorem faultEntryIsPrecise : Obligations.FaultEntryIsPrecise := by
  intro i s t hrun h hfault
  have hentry := exec_faultEntry hrun hfault h
  exact ⟨hentry.frame, hentry.faultCause_ne_noFault, fun _ => hentry.eq_dp_of_cell_ne, hentry.trace_eq_append⟩

end Sys2Proof.Machine

namespace Sys2Proof.Machine

/-! PROOF. 70_reset_and_hazards.md R106, R107: a reset edge is the reset followed by the load port. The reset gives every
register of R106 its value; the load port writes the program registers alone, and each only under its own write enable. -/

/-- What the load port keeps (20_memory.md R47): all but `prog` and `plen`, and each of these unless its write enable is
asserted. -/
theorem loadPort_frame (p : Pins) (s : State) :
    ∃ m n, loadPort p s = { s with prog := m, plen := n } ∧
      (p.progWe = false → m = s.prog) ∧ (p.plenWe = false → n = s.plen) :=
  ⟨_, _, loadPort_eq p s, fun hwe => if_neg (by simp [hwe]), fun hwe => if_neg (by simp [hwe])⟩

theorem cell_hwReset (s : State) (a : Nat) : (hwReset s).cell a = 0 := rfl

/-- In EXEC both handshakes are deasserted (20_memory.md R43, R45). -/
theorem ports_deasserted_of_exec {s : State} (h : s.phase = .exec) (reading : Nat) :
    (outputs reading s).inReady = false ∧ (outputs reading s).outValid = false := by
  simp [outputs, h]

/-- Settles O33: the load port keeps what the reset has written, and keeps the program where it is not enabled. -/
theorem resetSetsEveryRegister : Obligations.ResetSetsEveryRegister := by
  intro p s hrst
  obtain ⟨m, n, hload, hprog, hplen⟩ := loadPort_frame p (hwReset s)
  have hedge : clockEdge p s = .next { hwReset s with prog := m, plen := n } := by
    rw [clockEdge_of_rst hrst, hload]
  exact ⟨_, hedge, cell_hwReset s, rfl, rfl, rfl, rfl, rfl, rfl, rfl, rfl,
    ports_deasserted_of_exec rfl, rfl, hprog, hplen⟩

end Sys2Proof.Machine

namespace Sys2Proof.Machine

/-! PROOF. 30_encoding.md R53 to R56: the encoder and the decoder invert each other. -/

/-- An instruction is read back from its byte; a NOP, because its byte is none of the eight. -/
theorem decodeByte_encodeByte {i : Instr} (h : wellFormed i = true) : decodeByte (encodeByte i) = i := by
  cases i with
  | nop b =>
    have hnop : b ∉ instructionBytes := by simpa [wellFormed] using h
    exact decodeByte_eq_nop_iff.2 hnop
  | ptrInc | ptrDec | cellInc | cellDec | output | input | loopOpen | loopClose => rfl

theorem decode_cons (b : Byte) (rest : List Byte) : decode (b :: rest) = .ok (decodeByte b, rest) := rfl

/-- Settles O3: an instruction is encoded by one byte, which is read back on its own. -/
theorem decodingAnEncodedInstructionGivesItBack : Obligations.DecodingAnEncodedInstructionGivesItBack := by
  intro i rest h
  calc decode (encode i ++ rest) = .ok (decodeByte (encodeByte i), rest) := decode_cons (encodeByte i) rest
    _ = .ok (i, rest) := by rw [decodeByte_encodeByte h]

theorem encodeByte_decodeByte (b : Byte) : encodeByte (decodeByte b) = b := by
  cases h : decodeByte b with
  | ptrInc => exact (decodeByte_eq_ptrInc.1 h).symm
  | ptrDec => exact (decodeByte_eq_ptrDec.1 h).symm
  | cellInc => exact (decodeByte_eq_cellInc.1 h).symm
  | cellDec => exact (decodeByte_eq_cellDec.1 h).symm
  | output => exact (decodeByte_eq_output.1 h).symm
  | input => exact (decodeByte_eq_input.1 h).symm
  | loopOpen => exact (decodeByte_eq_loopOpen.1 h).symm
  | loopClose => exact (decodeByte_eq_loopClose.1 h).symm
  | nop c => exact decodeByte_nop_byte h

/-- The decoder is total into the instructions: a NOP it answers carries a byte outside the table. -/
theorem wellFormed_decodeByte (b : Byte) : wellFormed (decodeByte b) = true := by
  cases h : decodeByte b with
  | nop c =>
    obtain rfl := decodeByte_nop_byte h
    have hnop : c ∉ instructionBytes := decodeByte_eq_nop_iff.1 h
    simpa [wellFormed] using hnop
  | ptrInc | ptrDec | cellInc | cellDec | output | input | loopOpen | loopClose => rfl

/-- R56: of the 256 bytes, all but the eight of the table are NOPs. -/
theorem length_filter_nop_bytes :
    ((List.range 256).filter fun n => decodeByte (BitVec.ofNat 8 n) == .nop (BitVec.ofNat 8 n)).length = 248 := by
  decide +kernel

/-- Settles O4: the instruction of a byte is the one decoded from it, and its encoding is that byte again. -/
theorem everyByteIsOneInstruction : Obligations.EveryByteIsOneInstruction :=
  ⟨fun b rest => ⟨decodeByte b, decode_cons b rest, wellFormed_decodeByte b, congrArg ([·]) (encodeByte_decodeByte b)⟩,
    length_filter_nop_bytes⟩

/-- Settles O2: each word is the byte of its instruction in the table of R55. -/
theorem writtenOutWordsDecode : Obligations.WrittenOutWordsDecode :=
  ⟨rfl, rfl, rfl, rfl, rfl, rfl, rfl⟩

end Sys2Proof.Machine

namespace Sys2Proof.Machine

/-! PROOF. 30_encoding.md R62: all that an instruction can do, said once. The frames, the trace and the invariant
of every instruction are read off its cases. -/

/-- The ends of an instruction in `s`: one case for each instruction, and for each way it goes on. -/
inductive Executes (s : State) : Instr → State → Prop
  | ptrInc : Executes s .ptrInc (advance { s with dp := dpNext s.cfg s.dp })
  | ptrDec : Executes s .ptrDec (advance { s with dp := dpPrev s.cfg s.dp })
  | cellInc (hd : s.dp < s.cfg.tapeCap) :
    Executes s .cellInc (advance { s with tape := tapeWrite s.tape s.dp (aluInc (s.cell s.dp)) })
  | cellDec (hd : s.dp < s.cfg.tapeCap) :
    Executes s .cellDec (advance { s with tape := tapeWrite s.tape s.dp (aluDec (s.cell s.dp)) })
  | outputHeld (hqo : s.outQ = []) : Executes s .output s
  | outputDone {o : OutResp} {qo : List OutResp} (hd : s.dp < s.cfg.tapeCap) (hqo : s.outQ = o :: qo) :
    Executes s .output (finishOutput o (outTransfer (s.cell s.dp) o s))
  | inputHeld (hq : s.inQ = [] ∨ ∃ r q v, s.inQ = r :: q ∧ inValue s.cfg r = some v ∧ s.outQ = []) :
    Executes s .input s
  | inputFailed {qi : List InResp} (hqi : s.inQ = .err :: qi) :
    Executes s .input (raiseFault .inError (inTransfer .err s))
  | inputDone {r : InResp} {v : Byte} {o : OutResp} {qi : List InResp} {qo : List OutResp} (hd : s.dp < s.cfg.tapeCap)
      (hqi : s.inQ = r :: qi) (hv : inValue s.cfg r = some v) (hqo : s.outQ = o :: qo) :
    Executes s .input (finishOutput o (s.echoed r v o qi qo))
  | openTaken (hd : s.dp < s.cfg.tapeCap) (hcell : s.cell s.dp = 0) :
    Executes s .loopOpen (takeBracket (forwardScan s s.ip) .unmatchedOpen s)
  | openPassed (hd : s.dp < s.cfg.tapeCap) (hcell : s.cell s.dp ≠ 0) : Executes s .loopOpen (advance s)
  | closeTaken (hd : s.dp < s.cfg.tapeCap) (hcell : s.cell s.dp ≠ 0) :
    Executes s .loopClose (takeBracket (backwardScan s s.ip) .unmatchedClose s)
  | closePassed (hd : s.dp < s.cfg.tapeCap) (hcell : s.cell s.dp = 0) : Executes s .loopClose (advance s)
  | nop (b : Byte) : Executes s (.nop b) (advance s)

theorem exec_output_of_no_answer {s : State} (h : s.outQ = []) : exec .output s = .next s := by
  simp [exec, execOutput, h]

/-- IN holds for want of its input, and for want of the answer to its echo (log 2). -/
theorem exec_input_of_no_answer {s : State}
    (h : s.inQ = [] ∨ ∃ r q v, s.inQ = r :: q ∧ inValue s.cfg r = some v ∧ s.outQ = []) : exec .input s = .next s := by
  rcases h with hqi | ⟨r, q, v, hqi, hv, hqo⟩
  · simp [exec, execInput, hqi]
  · simp [exec, execInput, hqi, hv, hqo]

theorem Executes.of_exec {i : Instr} {s t : State} (h : exec i s = .next t) : Executes s i t := by
  cases i with
  | ptrInc => obtain rfl := execPtrInc_next h; exact .ptrInc
  | ptrDec => obtain rfl := execPtrDec_next h; exact .ptrDec
  | cellInc => obtain ⟨hd, rfl⟩ := execCellInc_next h; exact .cellInc hd
  | cellDec => obtain ⟨hd, rfl⟩ := execCellDec_next h; exact .cellDec hd
  | output =>
    rcases execOutput_next h with ⟨hqo, rfl⟩ | ⟨o, qo, hqo, hd, rfl⟩
    · exact .outputHeld hqo
    · exact .outputDone hd hqo
  | input =>
    rcases execInput_next h with ⟨rfl, hq⟩ | ⟨qi, hqi, rfl⟩ | ⟨r, qi, v, o, qo, hqi, hv, hqo, hd, -⟩
    · exact .inputHeld hq
    · exact .inputFailed hqi
    · rw [exec_input_of_answers hd hqi hqo hv] at h
      cases h
      exact .inputDone hd hqi hv hqo
  | loopOpen =>
    obtain ⟨hd, ⟨hcell, rfl⟩ | ⟨hcell, rfl⟩⟩ := execLoopOpen_next h
    · exact .openTaken hd hcell
    · exact .openPassed hd hcell
  | loopClose =>
    obtain ⟨hd, ⟨hcell, rfl⟩ | ⟨hcell, rfl⟩⟩ := execLoopClose_next h
    · exact .closeTaken hd hcell
    · exact .closePassed hd hcell
  | nop b => obtain rfl := execNop_next (b := b) h; exact .nop b

theorem Executes.exec_eq {i : Instr} {s t : State} (h : Executes s i t) : exec i s = .next t := by
  cases h with
  | ptrInc | ptrDec | nop => rfl
  | cellInc hd => exact execCellInc_of_lt hd
  | cellDec hd => exact execCellDec_of_lt hd
  | outputHeld hqo => exact exec_output_of_no_answer hqo
  | outputDone hd hqo => exact execOutput_of_answer hd hqo
  | inputHeld hq => exact exec_input_of_no_answer hq
  | inputFailed hqi =>
    rw [exec_input_of_err hqi, inTransfer_eq, hqi, List.tail_cons]
  | inputDone hd hqi hv hqo => exact exec_input_of_answers hd hqi hqo hv
  | openTaken hd hcell => exact exec_loopOpen_of_zero hd hcell
  | openPassed hd hcell => exact exec_loopOpen_of_ne_zero hd hcell
  | closeTaken hd hcell => exact exec_loopClose_of_ne_zero hd hcell
  | closePassed hd hcell => exact exec_loopClose_of_zero hd hcell

/-- Where there is a current cell every instruction completes: no answer of the host and no bracket stops the model. -/
theorem exists_exec_eq_next (i : Instr) {s : State} (hd : s.dp < s.cfg.tapeCap) : ∃ t, exec i s = .next t := by
  cases i with
  | ptrInc | ptrDec | nop => exact ⟨_, rfl⟩
  | cellInc => exact ⟨_, execCellInc_of_lt hd⟩
  | cellDec => exact ⟨_, execCellDec_of_lt hd⟩
  | output =>
    cases hqo : s.outQ with
    | nil => exact ⟨_, exec_output_of_no_answer hqo⟩
    | cons o qo => exact ⟨_, execOutput_of_answer hd hqo⟩
  | input =>
    cases hqi : s.inQ with
    | nil => exact ⟨_, exec_input_of_no_answer (.inl hqi)⟩
    | cons r qi =>
      cases hv : inValue s.cfg r with
      | none =>
        obtain rfl := inValue_eq_none.1 hv
        exact ⟨_, exec_input_of_err hqi⟩
      | some v =>
        cases hqo : s.outQ with
        | nil => exact ⟨_, exec_input_of_no_answer (.inr ⟨r, qi, v, hqi, hv, hqo⟩)⟩
        | cons o qo => exact ⟨_, exec_input_of_answers hd hqi hqo hv⟩
  | loopOpen => exact ⟨_, execLoopOpen_of_lt hd⟩
  | loopClose => exact ⟨_, execLoopClose_of_lt hd⟩

/-- Settles O16: each of the three waits answers the state it began in. -/
theorem transfersWaitForTheHost : Obligations.TransfersWaitForTheHost := by
  refine ⟨fun _ => exec_output_of_no_answer, fun _ hqi => exec_input_of_no_answer (.inl hqi),
    fun s r q hqi hr hqo => ?_⟩
  obtain ⟨v, hv⟩ := Option.ne_none_iff_exists'.1 (mt inValue_eq_none.1 hr : inValue s.cfg r ≠ none)
  exact exec_input_of_no_answer (.inr ⟨r, q, v, hqi, hv, hqo⟩)

/-- Settles O5: the bytes at `ip` are one byte, and its instruction is the one fetched. -/
theorem stepRunsTheDecodedInstruction : Obligations.StepRunsTheDecodedInstruction := by
  intro s i rest hready hdecode _
  obtain ⟨rfl, -⟩ : fetch s = i ∧ [] = rest := by
    simpa [State.fetchBytes, decode_cons, fetch] using hdecode
  exact step_of_ready hready

end Sys2Proof.Machine

namespace Sys2Proof.Machine

/-! PROOF. 20_memory.md R50, R51: what each instruction records, and what it leaves in `obuf`. -/

/-- Settles O17: the events of each end of an instruction, and the input responses among them are the host's answers used
up. -/
theorem traceRecordsEachTransfer : Obligations.TraceRecordsEachTransfer := by
  intro i s t h
  cases Executes.of_exec h with
  | ptrInc | ptrDec | cellInc | cellDec | openPassed | closePassed | nop =>
    exact ⟨[], (List.append_nil _).symm, rfl, rfl⟩
  | openTaken | closeTaken =>
    rw [takeBracket_eq]
    exact ⟨[], (List.append_nil _).symm, rfl, rfl⟩
  | outputHeld | inputHeld => exact ⟨[], (List.append_nil _).symm, rfl, .inl ⟨rfl, rfl⟩⟩
  | @outputDone o qo =>
    rw [finishOutput_eq]
    exact ⟨[.out (s.cell s.dp) o], rfl, rfl, .inr ⟨o, rfl⟩⟩
  | inputFailed hqi => exact ⟨[.inp .err], rfl, by simp [hqi, Event.response], .inr (.inl rfl)⟩
  | @inputDone r v o qi qo _ hqi hv =>
    have hr : r ≠ .err := by
      rintro rfl
      cases hv
    rw [finishOutput_eq]
    exact ⟨[.inp r, .out v o], rfl, hqi, .inr (.inr ⟨r, v, o, hr, rfl⟩)⟩

/-- Settles O48: the trace fixes the events added, whose only `Out` event, if any, carries the byte put in `obuf`. -/
theorem transfersLeaveTheirByteInObuf : Obligations.TransfersLeaveTheirByteInObuf := by
  intro i s t es h htrace
  have events_eq {es' : List Event} (h' : t.trace = s.trace ++ es') : es = es' :=
    List.append_cancel_left (htrace.symm.trans h')
  cases Executes.of_exec h with
  | ptrInc | ptrDec | cellInc | cellDec | openPassed | closePassed | nop | outputHeld | inputHeld =>
    obtain rfl := events_eq (es' := []) (List.append_nil _).symm
    rfl
  | openTaken | closeTaken =>
    rw [takeBracket_eq] at events_eq ⊢
    obtain rfl := events_eq (es' := []) (List.append_nil _).symm
    rfl
  | outputDone | inputDone =>
    rw [finishOutput_eq] at events_eq ⊢
    obtain rfl := events_eq rfl
    rfl
  | inputFailed =>
    obtain rfl := events_eq (es' := [.inp .err]) rfl
    rfl

/-! PROOF. 10_state.md section 3, 20_memory.md section 3: the frames. -/

/-! ### The status registers -/

/-- The status registers and `phase` are kept, unless `t` is in FAULT. -/
def KeepsStatus (s t : State) : Prop :=
  t.runState ≠ .fault → t.runState = s.runState ∧ t.faultCause = s.faultCause ∧ t.phase = s.phase

theorem keepsStatus_finishOutput (o : OutResp) (s : State) : KeepsStatus s (finishOutput o s) := by
  cases o with
  | ok => exact fun _ => ⟨rfl, rfl, rfl⟩
  | err => exact fun hne => absurd rfl hne

theorem keepsStatus_takeBracket (e : ScanEnd) (c : FaultCause) (s : State) : KeepsStatus s (takeBracket e c s) := by
  cases hfound : e.found with
  | none =>
    rw [takeBracket_of_none c s hfound]
    exact fun hne => absurd rfl hne
  | some k =>
    rw [takeBracket_of_some c s hfound]
    exact fun _ => ⟨rfl, rfl, rfl⟩

theorem Executes.keepsStatus {i : Instr} {s t : State} (h : Executes s i t) : KeepsStatus s t := by
  cases h with
  | ptrInc | ptrDec | cellInc | cellDec | openPassed | closePassed | nop | outputHeld | inputHeld =>
    exact fun _ => ⟨rfl, rfl, rfl⟩
  | outputDone => exact keepsStatus_finishOutput _ (outTransfer _ _ s)
  | inputDone => exact keepsStatus_finishOutput _ (s.echoed _ _ _ _ _)
  | inputFailed => exact fun hne => absurd rfl hne
  | openTaken | closeTaken => exact keepsStatus_takeBracket _ _ s

theorem State.code_eq_of_prog_eq {s t : State} (h : t.prog = s.prog) (j : Nat) : t.code j = s.code j := by
  rw [State.code, State.code, h]

/-! ### The two frames -/

/-- Settles O24: none of these instructions' ends writes the tape, and each writes only what the statement leaves it. -/
theorem frameOfInstructionsThatStoreNothing : Obligations.FrameOfInstructionsThatStoreNothing := by
  intro i s t h hinc hdec hin
  have hstatus : KeepsStatus s t := (Executes.of_exec h).keepsStatus
  obtain ⟨hprog, hplen, hcfg⟩ := exec_keepsProgram h
  have hframe : t.tape = s.tape ∧ t.inQ = s.inQ ∧ (i ≠ .ptrInc → i ≠ .ptrDec → t.dp = s.dp) ∧
      (i ≠ .output → t.trace = s.trace ∧ t.obuf = s.obuf ∧ t.outQ = s.outQ) ∧
      (i ≠ .loopOpen → i ≠ .loopClose → t.sj = s.sj ∧ t.depth = s.depth) := by
    cases Executes.of_exec h with
    | cellInc => exact absurd rfl hinc
    | cellDec => exact absurd rfl hdec
    | inputHeld | inputFailed | inputDone => exact absurd rfl hin
    | ptrInc => exact ⟨rfl, rfl, fun hne => absurd rfl hne, fun _ => ⟨rfl, rfl, rfl⟩, fun _ _ => ⟨rfl, rfl⟩⟩
    | ptrDec => exact ⟨rfl, rfl, fun _ hne => absurd rfl hne, fun _ => ⟨rfl, rfl, rfl⟩, fun _ _ => ⟨rfl, rfl⟩⟩
    | outputHeld | openPassed | closePassed | nop =>
      exact ⟨rfl, rfl, fun _ _ => rfl, fun _ => ⟨rfl, rfl, rfl⟩, fun _ _ => ⟨rfl, rfl⟩⟩
    | outputDone =>
      rw [finishOutput_eq]
      exact ⟨rfl, rfl, fun _ _ => rfl, fun hne => absurd rfl hne, fun _ _ => ⟨rfl, rfl⟩⟩
    | openTaken =>
      rw [takeBracket_eq]
      exact ⟨rfl, rfl, fun _ _ => rfl, fun _ => ⟨rfl, rfl, rfl⟩, fun hne => absurd rfl hne⟩
    | closeTaken =>
      rw [takeBracket_eq]
      exact ⟨rfl, rfl, fun _ _ => rfl, fun _ => ⟨rfl, rfl, rfl⟩, fun _ hne => absurd rfl hne⟩
  obtain ⟨htape, hinQ, hdp, htransfer, hscan⟩ := hframe
  have hcell (a : Nat) : t.cell a = s.cell a := by rw [State.cell, State.cell, htape]
  exact ⟨htape, hcell, State.code_eq_of_prog_eq hprog, hplen, hcfg, hinQ, hdp, htransfer, hscan, hstatus⟩

/-- Settles O25: the tape of each of these instructions' ends is the one before, or the one written at `dp`. -/
theorem frameOfInstructionsThatStore : Obligations.FrameOfInstructionsThatStore := by
  intro i s t h hi
  have hstatus : KeepsStatus s t := (Executes.of_exec h).keepsStatus
  obtain ⟨hprog, hplen, hcfg⟩ := exec_keepsProgram h
  have hframe : (∀ a, a ≠ s.dp → t.cell a = s.cell a) ∧ t.dp = s.dp ∧ t.sj = s.sj ∧ t.depth = s.depth ∧
      (i ≠ .input → t.trace = s.trace ∧ t.obuf = s.obuf ∧ t.inQ = s.inQ ∧ t.outQ = s.outQ) := by
    cases Executes.of_exec h with
    | cellInc | cellDec =>
      exact ⟨fun _ ha => tapeByte_tapeWrite_ne ha _ _, rfl, rfl, rfl, fun _ => ⟨rfl, rfl, rfl, rfl⟩⟩
    | inputHeld | inputFailed => exact ⟨fun _ _ => rfl, rfl, rfl, rfl, fun hne => absurd rfl hne⟩
    | inputDone =>
      refine ⟨fun _ ha => cell_finishOutput_echoed_ne ha .., ?_⟩
      rw [finishOutput_eq]
      exact ⟨rfl, rfl, rfl, fun hne => absurd rfl hne⟩
    | ptrInc | ptrDec | outputHeld | outputDone | openTaken | openPassed | closeTaken | closePassed | nop =>
      simp at hi
  obtain ⟨hcell, hdp, hsj, hdepth, htransfer⟩ := hframe
  exact ⟨hcell, hdp, State.code_eq_of_prog_eq hprog, hplen, hcfg, hsj, hdepth, htransfer, hstatus⟩

/-! ### Other cells -/

theorem finishOutput_withTape (o : OutResp) (s : State) (m : Memory) :
    finishOutput o { s with tape := m } = { finishOutput o s with tape := m } := by
  cases o <;> rfl

theorem takeBracket_withTape (e : ScanEnd) (c : FaultCause) (s : State) (m : Memory) :
    takeBracket e c { s with tape := m } = { takeBracket e c s with tape := m } := by
  simp only [takeBracket_eq]

/-- On a tape with the same current cell an instruction ends alike, and stores what it stores. -/
theorem Executes.withTape {i : Instr} {s t : State} {m : Memory} (h : Executes s i t)
    (hm : tapeByte m s.dp = s.cell s.dp) :
    (t.tape = s.tape ∧ Executes { s with tape := m } i { t with tape := m }) ∨
    ∃ v, t.tape = tapeWrite s.tape s.dp v ∧ Executes { s with tape := m } i { t with tape := tapeWrite m s.dp v } := by
  have hacc : State.cell { s with tape := m } s.dp = s.cell s.dp := hm
  cases h with
  | ptrInc => exact .inl ⟨rfl, .ptrInc⟩
  | ptrDec => exact .inl ⟨rfl, .ptrDec⟩
  | cellInc hd => exact .inr ⟨_, rfl, hacc ▸ .cellInc hd⟩
  | cellDec hd => exact .inr ⟨_, rfl, hacc ▸ .cellDec hd⟩
  | outputHeld hqo => exact .inl ⟨rfl, .outputHeld hqo⟩
  | outputDone hd hqo =>
    refine .inl ⟨by rw [finishOutput_eq]; rfl, ?_⟩
    rw [← finishOutput_withTape, ← hacc]
    exact .outputDone hd hqo
  | inputHeld hq => exact .inl ⟨rfl, .inputHeld hq⟩
  | inputFailed hqi => exact .inl ⟨rfl, .inputFailed hqi⟩
  | inputDone hd hqi hv hqo =>
    refine .inr ⟨_, by rw [finishOutput_eq]; rfl, ?_⟩
    rw [← finishOutput_withTape]
    exact .inputDone hd hqi hv hqo
  | openTaken hd hcell =>
    refine .inl ⟨by rw [takeBracket_eq], ?_⟩
    rw [← takeBracket_withTape]
    exact .openTaken hd (hacc.trans hcell)
  | openPassed hd hcell => exact .inl ⟨rfl, .openPassed hd (hacc.trans_ne hcell)⟩
  | closeTaken hd hcell =>
    refine .inl ⟨by rw [takeBracket_eq], ?_⟩
    rw [← takeBracket_withTape]
    exact .closeTaken hd (hacc.trans_ne hcell)
  | closePassed hd hcell => exact .inl ⟨rfl, .closePassed hd (hacc.trans hcell)⟩
  | nop b => exact .inl ⟨rfl, .nop b⟩

/-- Settles O26: the two runs store nothing, or the same byte at `dp`. -/
theorem onlyTheCurrentCellMatters : Obligations.OnlyTheCurrentCellMatters := by
  intro i s t m hm h
  rcases (Executes.of_exec h).withTape hm with ⟨htape, hu⟩ | ⟨v, htape, hu⟩
  · refine ⟨_, hu.exec_eq, rfl, ?_, fun a _ => ⟨rfl, ?_⟩⟩
    · rw [State.cell, State.cell, htape]
      exact hm
    · rw [State.cell, State.cell, htape]
  · refine ⟨_, hu.exec_eq, rfl, ?_, fun a ha => ⟨tapeByte_tapeWrite_ne ha m v, ?_⟩⟩
    · rw [State.cell, State.cell, htape, tapeByte_tapeWrite_self, tapeByte_tapeWrite_self]
    · rw [State.cell, State.cell, htape, tapeByte_tapeWrite_ne ha]

/-! ### The hidden registers -/

theorem finishOutput_withHidden (o : OutResp) (s : State) (j d : Nat) (b : Byte) :
    finishOutput o (s.withHidden j d b) = (finishOutput o s).withHidden j d b := by
  cases o <;> rfl

/-- Of a scan, a taken bracket shows the index found, outside the scan's own registers. -/
theorem takeBracket_withHidden {e e' : ScanEnd} (hfound : e'.found = e.found) (c : FaultCause) (s : State) (j d : Nat)
    (b : Byte) : takeBracket e' c (s.withHidden j d b) = (takeBracket e c s).withHidden e'.sj e'.depth b := by
  simp [takeBracket_eq, State.withHidden, hfound]

/-- At index 0 the scan keeps the `sj` it began with, and finds nothing whatever that is. -/
theorem backwardScan_withHidden_found (s : State) (i j d : Nat) (b : Byte) :
    (backwardScan (s.withHidden j d b) i).found = (backwardScan s i).found := by
  cases i <;> rfl

theorem Executes.withHidden {i : Instr} {s t : State} (h : Executes s i t) (j d : Nat) (b : Byte) :
    ∃ j' d' b', Executes (s.withHidden j d b) i (t.withHidden j' d' b') := by
  cases h with
  | ptrInc => exact ⟨_, _, _, .ptrInc⟩
  | ptrDec => exact ⟨_, _, _, .ptrDec⟩
  | cellInc hd => exact ⟨_, _, _, .cellInc hd⟩
  | cellDec hd => exact ⟨_, _, _, .cellDec hd⟩
  | outputHeld hqo => exact ⟨_, _, _, .outputHeld hqo⟩
  | outputDone hd hqo =>
    refine ⟨j, d, s.cell s.dp, ?_⟩
    rw [← finishOutput_withHidden]
    exact .outputDone hd hqo
  | inputHeld hq => exact ⟨_, _, _, .inputHeld hq⟩
  | inputFailed hqi => exact ⟨_, _, _, .inputFailed hqi⟩
  | @inputDone r v o qi qo hd hqi hv hqo =>
    refine ⟨j, d, v, ?_⟩
    rw [← finishOutput_withHidden]
    exact .inputDone hd hqi hv hqo
  | openTaken hd hcell =>
    refine ⟨(forwardScan s s.ip).sj, (forwardScan s s.ip).depth, b, ?_⟩
    rw [← takeBracket_withHidden rfl _ s j d]
    exact .openTaken hd hcell
  | openPassed hd hcell => exact ⟨_, _, _, .openPassed hd hcell⟩
  | closeTaken hd hcell =>
    refine ⟨(backwardScan (s.withHidden j d b) s.ip).sj, (backwardScan (s.withHidden j d b) s.ip).depth, b, ?_⟩
    rw [← takeBracket_withHidden (backwardScan_withHidden_found s s.ip j d b) _ s j d]
    exact .closeTaken hd hcell
  | closePassed hd hcell => exact ⟨_, _, _, .closePassed hd hcell⟩
  | nop c => exact ⟨_, _, _, .nop c⟩

theorem step_of_stopped {s : State} (h : s.runState ≠ .running) : step s = .next s := by
  cases hrun : s.runState with
  | running => exact absurd hrun h
  | halted => exact step_of_halted hrun
  | fault => exact step_of_fault hrun

/-- The cases of a step from a step boundary: a stopped block, the halt, and an instruction. -/
theorem step_cases_of_exec {s t : State} (hphase : s.phase = .exec) (h : step s = .next t) :
    (s.runState ≠ .running ∧ t = s) ∨
    (s.runState = .running ∧ s.plen ≤ s.ip ∧ t = halt s) ∨
    (Ready s ∧ Executes s (fetch s) t) := by
  by_cases hrun : s.runState = .running
  · rcases Nat.lt_or_ge s.ip s.plen with hlt | hge
    · have hready : Ready s := ⟨hrun, hphase, hlt⟩
      rw [step_of_ready hready] at h
      exact .inr (.inr ⟨hready, .of_exec h⟩)
    · rw [step_of_plen_le_ip hrun hphase hge] at h
      cases h
      exact .inr (.inl ⟨hrun, hge, rfl⟩)
  · rw [step_of_stopped hrun] at h
    cases h
    exact .inl ⟨hrun, rfl⟩

/-- Settles O27: a stopped block and the halt read no hidden register, and an instruction passes a change of them on to
none but themselves. -/
theorem hiddenRegistersAreUnobservable : Obligations.HiddenRegistersAreUnobservable := by
  intro s t j d b hphase h
  rcases step_cases_of_exec hphase h with ⟨hstop, rfl⟩ | ⟨hrun, hge, rfl⟩ | ⟨hready, hexec⟩
  · exact ⟨j, d, b, step_of_stopped hstop⟩
  · exact ⟨j, d, b, step_of_plen_le_ip hrun hphase hge⟩
  · obtain ⟨j', d', b', hhidden⟩ := hexec.withHidden j d b
    have hready' : Ready (s.withHidden j d b) := ⟨hready.running, hready.boundary, hready.in_program⟩
    exact ⟨j', d', b', (step_of_ready hready').trans hhidden.exec_eq⟩

end Sys2Proof.Machine

namespace Sys2Proof.Machine

/-! PROOF. 43_control_flow.md R77: a matching pair is a pair of brackets around a balanced body. -/

/-! ### Where a search finds nothing -/

theorem forall_not_leastIn_iff {P : Nat → Prop} {lo hi : Nat} :
    (∀ k, ¬ LeastIn P lo hi k) ↔ ∀ k, lo ≤ k → k < hi → ¬ P k := by
  constructor
  · intro hnone k
    induction k using Nat.strong_induction_on with
    | _ k ih => exact fun hlo hhi hk => hnone k ⟨hlo, hhi, hk, fun m hm hmk => ih m hmk hm (by omega)⟩
  · rintro hnone k ⟨hlo, hhi, hk, -⟩
    exact hnone k hlo hhi hk

theorem forall_not_greatestBelow_iff {P : Nat → Prop} {hi : Nat} :
    (∀ k, ¬ GreatestBelow P hi k) ↔ ∀ k, k < hi → ¬ P k := by
  constructor
  · intro hnone
    induction hi with
    | zero => exact fun k hk => absurd hk (Nat.not_lt_zero k)
    | succ hi ih =>
      have hP : ¬ P hi := fun hhi => hnone hi ((greatestBelow_succ_iff_of_pos hhi).2 rfl)
      intro k hk
      rcases (Nat.le_of_lt_succ hk).eq_or_lt with rfl | hlt
      · exact hP
      · exact ih (fun m hm => hnone m ((greatestBelow_succ_iff_of_neg hP).2 hm)) k hlt
  · rintro hnone k ⟨hlt, hk, -⟩
    exact hnone k hlt hk

/-! ### Counts over adjacent ranges -/

theorem opens_add (p : Memory) {x y z : Nat} (hxy : x ≤ y) (hyz : y ≤ z) :
    opens p x z = opens p x y + opens p y z := by
  induction z, hyz using Nat.le_induction with
  | base => rw [opens_self, Nat.add_zero]
  | succ z hyz ih => rw [opens_succ_right p (hxy.trans hyz), opens_succ_right p hyz, ih, Nat.add_assoc]

theorem closes_add (p : Memory) {x y z : Nat} (hxy : x ≤ y) (hyz : y ≤ z) :
    closes p x z = closes p x y + closes p y z := by
  induction z, hyz using Nat.le_induction with
  | base => rw [closes_self, Nat.add_zero]
  | succ z hyz ih => rw [closes_succ_right p (hxy.trans hyz), closes_succ_right p hyz, ih, Nat.add_assoc]

/-- No byte is both brackets. -/
theorem ne_close_of_open {b : Byte} (h : b = 0x5B) : b ≠ 0x5D := by
  rw [h]
  decide

/-! ### The balanced body -/

/-- The body between `i` and `k` opens as many brackets as it closes, and no beginning of it closes more. -/
def BalancedBody (p : Memory) (i k : Nat) : Prop :=
  opens p (i + 1) k = closes p (i + 1) k ∧ ∀ j, i < j → j ≤ k → closes p (i + 1) j ≤ opens p (i + 1) j

/-- Seen from its other end: no end of a balanced body opens more brackets than it closes. -/
theorem balancedBody_iff_ends {p : Memory} {i k : Nat} :
    BalancedBody p i k ↔
      opens p (i + 1) k = closes p (i + 1) k ∧ ∀ j, i < j → j ≤ k → opens p j k ≤ closes p j k := by
  refine and_congr_right fun hbody => forall_congr' fun j => ?_
  refine forall_congr' fun hij => forall_congr' fun hjk => ?_
  have hopens := opens_add p (x := i + 1) hij hjk
  have hcloses := closes_add p (x := i + 1) hij hjk
  omega

/-- Before the match of a forward search, the brackets closed are never more than those opened: the count starts at 1
and moves by at most 1, so it cannot pass 0 unnoticed. -/
theorem closes_le_opens_of_forall_not_closesAt {p : Memory} {i k : Nat} (hnone : ∀ j, i < j → j < k → ¬ closesAt p i j)
    (hik : i < k) : closes p (i + 1) k ≤ opens p (i + 1) k := by
  induction k, hik using Nat.le_induction with
  | base => simp [opens_self, closes_self]
  | succ k hik ih =>
    have hle := ih fun j hij hjk => hnone j hij (by omega)
    have hne : ¬ closesAt p i k := hnone k hik (by omega)
    have hopens := opens_succ_right p (x := i + 1) hik
    have hcloses := closes_succ_right p (x := i + 1) hik
    unfold closesAt at hne
    split at hcloses <;> omega

/-- After the match of a backward search, the brackets opened are never more than those closed. -/
theorem opens_le_closes_of_forall_not_opensAt {p : Memory} {i k : Nat} (hnone : ∀ j, i < j → j < k → ¬ opensAt p k j)
    {j : Nat} (hij : i < j) (hjk : j ≤ k) : opens p j k ≤ closes p j k := by
  induction hjk using Nat.decreasingInduction with
  | self => simp [opens_self, closes_self]
  | of_succ j hjk ih =>
    have hle := ih (by omega)
    have hne : ¬ opensAt p k j := hnone j hij hjk
    have hopens := opens_succ_left p hjk
    have hcloses := closes_succ_left p hjk
    unfold opensAt at hne
    split at hopens <;> omega

/-- R77 forward: the match is the `]` that ends a balanced body. -/
theorem isMatchFwd_iff {p : Memory} {n i k : Nat} :
    isMatchFwd p n i k ↔ i < k ∧ k < n ∧ progByte p k = 0x5D ∧ BalancedBody p i k := by
  constructor
  · rintro ⟨hik, hkn, hk, hnone⟩
    have hbody (j : Nat) (hij : i < j) (hjk : j ≤ k) : closes p (i + 1) j ≤ opens p (i + 1) j :=
      closes_le_opens_of_forall_not_closesAt (fun m him hmj => hnone m him (by omega)) hij
    have hle := hbody k hik le_rfl
    unfold closesAt at hk
    rw [opens_succ_right p (x := i + 1) hik, closes_succ_right p (x := i + 1) hik] at hk
    have hclose : progByte p k = 0x5D := by
      by_contra hne
      rw [if_neg hne] at hk
      omega
    rw [if_pos hclose, if_neg fun hopen => ne_close_of_open hopen hclose] at hk
    exact ⟨hik, hkn, hclose, by omega, hbody⟩
  · rintro ⟨hik, hkn, hclose, heq, hbody⟩
    refine ⟨hik, hkn, ?_, fun j hij hjk hj => ?_⟩
    · rw [closesAt, opens_succ_right p (x := i + 1) hik, closes_succ_right p (x := i + 1) hik, if_pos hclose,
        if_neg fun hopen => ne_close_of_open hopen hclose]
      omega
    · have hle := hbody (j + 1) (by omega) hjk
      unfold closesAt at hj
      omega

/-- R77 backward: the match is the `[` that begins a balanced body. -/
theorem isMatchBwd_iff {p : Memory} {i k : Nat} :
    isMatchBwd p k i ↔ i < k ∧ progByte p i = 0x5B ∧ BalancedBody p i k := by
  rw [balancedBody_iff_ends]
  constructor
  · rintro ⟨hik, hi, hnone⟩
    have hbody (j : Nat) (hij : i < j) (hjk : j ≤ k) : opens p j k ≤ closes p j k :=
      opens_le_closes_of_forall_not_opensAt hnone hij hjk
    have hle := hbody (i + 1) (by omega) hik
    unfold opensAt at hi
    rw [opens_succ_left p hik, closes_succ_left p hik] at hi
    have hopen : progByte p i = 0x5B := by
      by_contra hne
      rw [if_neg hne] at hi
      omega
    rw [if_pos hopen, if_neg (ne_close_of_open hopen)] at hi
    exact ⟨hik, hopen, by omega, hbody⟩
  · rintro ⟨hik, hopen, heq, hbody⟩
    refine ⟨hik, ?_, fun j hij hjk hj => ?_⟩
    · rw [opensAt, opens_succ_left p hik, closes_succ_left p hik, if_pos hopen, if_neg (ne_close_of_open hopen)]
      omega
    · have hle := hbody j hij hjk.le
      unfold opensAt at hj
      omega

/-- Settles O20: the scans find the least and the greatest index of the count's condition, and nothing where there is
none; a match is a bracket at the end of a balanced body. -/
theorem scansComputeTheMatchingBracket : Obligations.ScansComputeTheMatchingBracket := by
  refine ⟨fun _ _ _ => forwardScan_found_eq_some, fun _ _ _ => backwardScan_found_eq_some, fun s i => ?_, fun s i => ?_,
    fun p n i k h => ?_, fun p i k h => ?_⟩
  · rw [forwardScan_found_eq_none]
    exact forall_not_leastIn_iff
  · rw [backwardScan_found_eq_none]
    exact forall_not_greatestBelow_iff
  · obtain ⟨-, hkn, hclose, -⟩ := isMatchFwd_iff.1 h
    exact ⟨hclose, hkn⟩
  · obtain ⟨hki, hopen, -⟩ := isMatchBwd_iff.1 h
    exact ⟨hopen, hki⟩

/-- Settles O21: either is the match of the other exactly where the body between them is balanced. -/
theorem bracketPartnersAgree : Obligations.BracketPartnersAgree := by
  intro p n i k hkn hopen hclose
  simp [isMatchFwd_iff, isMatchBwd_iff, hkn, hopen, hclose]

/-! PROOF. 43_control_flow.md R87: the step at each bracket of a loop. -/

theorem fetch_of_code_open {s : State} (h : s.code s.ip = 0x5B) : fetch s = .loopOpen := decodeByte_eq_loopOpen.2 h

theorem fetch_of_code_close {s : State} (h : s.code s.ip = 0x5D) : fetch s = .loopClose := decodeByte_eq_loopClose.2 h

/-- Settles O22: at each bracket the cell decides between the byte after it and the byte after its partner. -/
theorem loopRunsItsBodyWhileCellIsNonzero : Obligations.LoopRunsItsBodyWhileCellIsNonzero := by
  refine ⟨fun s k hready hd hopen hmatch => ?_, fun s i hready hd hopen hclose hmatch => ?_⟩
  · rw [step_of_ready hready, fetch_of_code_open hopen]
    by_cases hcell : s.cell s.dp = 0
    · rw [exec_loopOpen_of_zero hd hcell, takeBracket_of_some _ s (forwardScan_found_eq_some.2 hmatch)]
      exact ⟨_, rfl, rfl, rfl, hready.running, (if_pos hcell).symm⟩
    · rw [exec_loopOpen_of_ne_zero hd hcell]
      exact ⟨_, rfl, rfl, rfl, hready.running, (if_neg hcell).symm⟩
  · have hback : isMatchBwd s.prog s.ip i :=
      (bracketPartnersAgree s.prog s.plen i s.ip hready.in_program hopen hclose).1 hmatch
    rw [step_of_ready hready, fetch_of_code_close hclose]
    by_cases hcell : s.cell s.dp = 0
    · rw [exec_loopClose_of_zero hd hcell]
      exact ⟨_, rfl, rfl, rfl, hready.running, (if_pos hcell).symm⟩
    · rw [exec_loopClose_of_ne_zero hd hcell, takeBracket_of_some _ s (backwardScan_found_eq_some.2 hback)]
      exact ⟨_, rfl, rfl, rfl, hready.running, (if_neg hcell).symm⟩

end Sys2Proof.Machine

namespace Sys2Proof.Machine

/-! PROOF. 30_encoding.md R60 to R63: where an instruction leaves `ip`, and what any number of steps keeps. -/

theorem ne_err_of_inValue {c : Config} {r : InResp} {v : Byte} (h : inValue c r = some v) : r ≠ .err := by
  rintro rfl
  cases h

/-- Settles O7: each end of an instruction is one of the four; a taken bracket lands past what its scan found, which is
its match. -/
theorem instructionHoldsFaultsOrAdvances : Obligations.InstructionHoldsFaultsOrAdvances := by
  intro i s t hrun h
  cases Executes.of_exec h with
  | ptrInc | ptrDec | cellInc | cellDec | nop => exact .inr (.inr (.inl ⟨hrun, rfl, nofun, nofun⟩))
  | openPassed _ hcell => exact .inr (.inr (.inl ⟨hrun, rfl, fun _ => hcell, nofun⟩))
  | closePassed _ hcell => exact .inr (.inr (.inl ⟨hrun, rfl, nofun, fun _ => hcell⟩))
  | outputHeld hqo => exact .inl ⟨rfl, .inl ⟨rfl, hqo⟩⟩
  | inputHeld hq =>
    rcases hq with hqi | ⟨r, q, v, hqi, hv, hqo⟩
    · exact .inl ⟨rfl, .inr ⟨rfl, .inl hqi⟩⟩
    · have hhead : s.inQ.head? ≠ some .err := by simpa [hqi] using ne_err_of_inValue hv
      exact .inl ⟨rfl, .inr ⟨rfl, .inr ⟨hhead, hqo⟩⟩⟩
  | inputFailed => exact .inr (.inl ⟨rfl, rfl⟩)
  | @outputDone o | @inputDone r v o =>
    cases o with
    | ok => exact .inr (.inr (.inl ⟨hrun, rfl, nofun, nofun⟩))
    | err => exact .inr (.inl ⟨rfl, rfl⟩)
  | openTaken _ hcell =>
    cases hfound : (forwardScan s s.ip).found with
    | none =>
      rw [takeBracket_of_none _ s hfound]
      exact .inr (.inl ⟨rfl, rfl⟩)
    | some k =>
      rw [takeBracket_of_some _ s hfound]
      exact .inr (.inr (.inr ⟨hrun, k, rfl, .inl ⟨rfl, hcell, forwardScan_found_eq_some.1 hfound⟩⟩))
  | closeTaken _ hcell =>
    cases hfound : (backwardScan s s.ip).found with
    | none =>
      rw [takeBracket_of_none _ s hfound]
      exact .inr (.inl ⟨rfl, rfl⟩)
    | some k =>
      rw [takeBracket_of_some _ s hfound]
      exact .inr (.inr (.inr ⟨hrun, k, rfl, .inr ⟨rfl, hcell, backwardScan_found_eq_some.1 hfound⟩⟩))

/-! ### What every step keeps -/

/-- A property that every step keeps holds after any number of steps. -/
theorem steps_induction {P : State → Prop} (hstep : ∀ {s t}, P s → step s = .next t → P t) {n : Nat} {s t : State}
    (hs : P s) (h : steps n s = .next t) : P t := by
  induction n generalizing s with
  | zero =>
    cases h
    exact hs
  | succ n ih =>
    unfold steps at h
    split at h
    next s' hs' => exact ih (hstep hs hs') h
    all_goals cases h

theorem keepsProgram_trans {s t u : State} (h : KeepsProgram s t) (h' : KeepsProgram t u) : KeepsProgram s u := by
  obtain ⟨hprog, hplen, hcfg⟩ := h
  obtain ⟨hprog', hplen', hcfg'⟩ := h'
  exact ⟨hprog'.trans hprog, hplen'.trans hplen, hcfg'.trans hcfg⟩

theorem steps_keepsProgram {n : Nat} {s t : State} (h : steps n s = .next t) : KeepsProgram s t :=
  steps_induction (P := KeepsProgram s) (fun hkeep hstep => keepsProgram_trans hkeep (step_keepsProgram hstep))
    (keepsProgram_refl s) h

/-- R60: an instruction executed at a step boundary of a RUNNING block ends at one, a fault's included. -/
theorem Executes.phase_eq_exec {i : Instr} {s t : State} (h : Executes s i t) (hrun : s.runState = .running)
    (hphase : s.phase = .exec) : t.phase = .exec := by
  by_cases hfault : t.runState = .fault
  · rw [(exec_faultEntry hrun hfault h.exec_eq).frame]
  · obtain ⟨-, -, hkeep⟩ := h.keepsStatus hfault
    exact hkeep.trans hphase

/-- R63: an instruction inside the program leaves `ip` at most one past its last byte. -/
theorem Executes.ip_le_plen {i : Instr} {s t : State} (h : Executes s i t) (hrun : s.runState = .running)
    (hlt : s.ip < s.plen) : t.ip ≤ t.plen := by
  obtain ⟨-, hplen, -⟩ := exec_keepsProgram h.exec_eq
  rw [hplen]
  rcases instructionHoldsFaultsOrAdvances i s t hrun h.exec_eq with
    ⟨rfl, -⟩ | ⟨-, hip⟩ | ⟨-, hip, -, -⟩ | ⟨-, k, hip, ⟨-, -, -, hk, -⟩ | ⟨-, -, hk, -⟩⟩
  all_goals omega

/-- A step boundary with `ip` inside the program or at its end (R60, R63). -/
def AtBoundary (s : State) : Prop := s.phase = .exec ∧ s.ip ≤ s.plen

theorem step_keeps_atBoundary {s t : State} (hs : AtBoundary s) (h : step s = .next t) : AtBoundary t := by
  obtain ⟨hphase, hip⟩ := hs
  rcases step_cases_of_exec hphase h with ⟨-, rfl⟩ | ⟨-, -, rfl⟩ | ⟨hready, hexec⟩
  · exact ⟨hphase, hip⟩
  · exact ⟨hphase, hip⟩
  · exact ⟨hexec.phase_eq_exec hready.running hready.boundary, hexec.ip_le_plen hready.running hready.in_program⟩

/-- Settles O45: an instruction is executed inside the program only, and the halt moves nothing. -/
theorem stepsStayAtBoundariesInsideTheProgram : Obligations.StepsStayAtBoundariesInsideTheProgram :=
  fun _ _ _ hphase hip h => steps_induction step_keeps_atBoundary ⟨hphase, hip⟩ h

/-- A reset undoes all that a run has changed, once the host's answers are given again. -/
theorem hwReset_withHost_of_keepsProgram {s t : State} (h : KeepsProgram (hwReset s) t) :
    hwReset (t.withHost s.inQ s.outQ) = hwReset s := by
  obtain ⟨hprog, hplen, hcfg⟩ := h
  simp only [hwReset_prog, hwReset_plen, hwReset_cfg] at hprog hplen hcfg
  simp [hwReset, State.withHost, hprog, hplen, hcfg]

/-- Settles O36: the steps keep the program, so the second run begins in the state of the first. -/
theorem rerunAfterResetIsRepeatable : Obligations.RerunAfterResetIsRepeatable := by
  intro n s t h
  rwa [hwReset_withHost_of_keepsProgram (steps_keepsProgram h)]

/-! PROOF. 10_state.md R24: the transitions of `run_state`. -/

/-- `t` stands in the `run_state` of `s`, or in FAULT. -/
def RunsOnOrFaults (s t : State) : Prop := t.runState = s.runState ∨ t.runState = .fault

theorem KeepsStatus.runsOnOrFaults {s t : State} (h : KeepsStatus s t) : RunsOnOrFaults s t := by
  by_cases hfault : t.runState = .fault
  · exact .inr hfault
  · obtain ⟨hkeep, -, -⟩ := h hfault
    exact .inl hkeep

theorem RunsOnOrFaults.ne_halted {s t : State} (h : RunsOnOrFaults s t) (hrun : s.runState = .running) :
    t.runState ≠ .halted := by
  rcases h with hkeep | hfault
  · simp [hkeep, hrun]
  · simp [hfault]

theorem scanFwdCycle_runsOnOrFaults (s : State) : RunsOnOrFaults s (scanFwdCycle s) := by
  unfold scanFwdCycle
  split
  · exact .inr rfl
  · dsimp only
    split <;> exact .inl rfl

theorem scanBwdCycle_runsOnOrFaults (s : State) : RunsOnOrFaults s (scanBwdCycle s) := by
  unfold scanBwdCycle
  dsimp only
  split
  · exact .inl rfl
  · split
    · exact .inr rfl
    · exact .inl rfl

theorem beginBackward_runsOnOrFaults (s : State) : RunsOnOrFaults s (beginBackward s) := by
  unfold beginBackward
  split
  · exact .inr rfl
  · exact .inl rfl

theorem acceptInput_runsOnOrFaults {r : InResp} {s t : State} (h : acceptInput r s = .next t) :
    RunsOnOrFaults s t := by
  rcases acceptInput_next h with ⟨-, rfl⟩ | ⟨v, -, -, rfl⟩
  · exact .inr rfl
  · exact .inl rfl

theorem acceptOutput_runsOnOrFaults (o : OutResp) (s : State) : RunsOnOrFaults s (acceptOutput o s) :=
  (keepsStatus_finishOutput o { record (.out s.obuf o) s with phase := .exec }).runsOnOrFaults

/-- The halt check's cycle apart, no cycle of the clocked build enters HALTED. -/
theorem cycle_runsOnOrFaults {rin : Option InResp} {rout : Option OutResp} {s t : State}
    (h : cycle rin rout s = .next t) :
    (s.phase = .exec ∧ s.plen ≤ s.ip ∧ t = halt s) ∨ (¬ (s.phase = .exec ∧ s.plen ≤ s.ip) ∧ RunsOnOrFaults s t) := by
  rcases cycle_next h with
    ⟨hphase, hbegin⟩ | ⟨hphase, rfl⟩ | ⟨hphase, rfl⟩ | ⟨hphase, rfl⟩ | ⟨hphase, r, -, hin⟩ | ⟨hphase, o, -, rfl⟩
  · rcases beginCycle_next hbegin with ⟨hend, rfl⟩ | ⟨hlt, hcases⟩
    · exact .inl ⟨hphase, hend, rfl⟩
    · refine .inr ⟨by omega, ?_⟩
      rcases hcases with ⟨-, rfl | rfl | rfl⟩ | rfl | rfl | ⟨i, -, -, -, -, hexec⟩
      case inl.inr.inr => exact beginBackward_runsOnOrFaults s
      case inr.inr.inr => exact (Executes.of_exec hexec).keepsStatus.runsOnOrFaults
      all_goals exact .inl rfl
  · exact .inr ⟨by simp [hphase], scanFwdCycle_runsOnOrFaults s⟩
  · exact .inr ⟨by simp [hphase], scanBwdCycle_runsOnOrFaults s⟩
  · exact .inr ⟨by rcases hphase with hphase | hphase <;> simp [hphase], .inl rfl⟩
  · exact .inr ⟨by simp [hphase], acceptInput_runsOnOrFaults hin⟩
  · exact .inr ⟨by simp [hphase], acceptOutput_runsOnOrFaults o s⟩

/-- Settles O32: only the halt check enters HALTED, every way into FAULT has its cause, a stopped block is left by reset
alone. -/
theorem runStateFollowsItsTransitions : Obligations.RunStateFollowsItsTransitions := by
  refine ⟨fun s t hrun hphase h => ?_, fun s t hstop h => ?_, fun p s t hrst hrun h => ?_, fun p s t hrst hstop h => ?_,
    fun p s t hrst h => ?_⟩
  · rcases step_cases_of_exec hphase h with ⟨hstop, -⟩ | ⟨-, hend, rfl⟩ | ⟨hready, hexec⟩
    · exact absurd hrun hstop
    · exact ⟨iff_of_true rfl hend, nofun⟩
    · have hne : t.runState ≠ .halted := hexec.keepsStatus.runsOnOrFaults.ne_halted hrun
      exact ⟨iff_of_false hne (Nat.not_le.2 hready.in_program),
        fun hfault => (exec_faultEntry hrun hfault hexec.exec_eq).faultCause_ne_noFault⟩
  · rw [step_of_stopped hstop] at h
    cases h
    rfl
  · rw [clockEdge_of_running hrst hrun] at h
    rcases cycle_runsOnOrFaults h with ⟨hphase, hend, rfl⟩ | ⟨hboundary, hkeep⟩
    · exact iff_of_true rfl ⟨hphase, hend⟩
    · exact iff_of_false (hkeep.ne_halted hrun) hboundary
  · rw [clockEdge_of_stopped hrst hstop, loadPort_eq] at h
    cases h
    rfl
  · rw [clockEdge_of_rst hrst, loadPort_eq] at h
    cases h
    rfl

end Sys2Proof.Machine

namespace Sys2Proof.Machine

/-! PROOF. 10_state.md sections 2 to 8: the invariant. Each shared operation keeps it; then every instruction, every
cycle of the clocked build, and the step and the clock edge made of them. -/

/-! ### The hidden state in each phase -/

theorem phaseFits_of_exec {s : State} (h : s.phase = .exec) : phaseFits s := by
  simp only [phaseFits, h]

theorem phaseFits_scanFwd {s : State} (h : s.phase = .scanFwd) :
    phaseFits s ↔ s.runState = .running ∧ s.ip < s.sj ∧ s.sj ≤ s.plen ∧ 1 ≤ s.depth ∧ s.depth ≤ s.sj - s.ip := by
  simp only [phaseFits, h]

theorem phaseFits_scanBwd {s : State} (h : s.phase = .scanBwd) :
    phaseFits s ↔ s.runState = .running ∧ s.sj < s.ip ∧ s.ip < s.plen ∧ 1 ≤ s.depth ∧ s.depth ≤ s.ip - s.sj := by
  simp only [phaseFits, h]

theorem phaseFits_waitIn {s : State} (h : s.phase = .waitIn) :
    phaseFits s ↔ s.runState = .running ∧ s.ip < s.plen := by
  simp only [phaseFits, h]

theorem phaseFits_waitOut {s : State} (h : s.phase = .waitOut) :
    phaseFits s ↔ s.runState = .running ∧ s.ip < s.plen := by
  simp only [phaseFits, h]

/-- Every phase but EXEC is of a RUNNING block. -/
theorem running_of_phase {s : State} (h : MachineInv s) (hphase : s.phase ≠ .exec) : s.runState = .running := by
  have hfits := h.phase_fits
  cases hp : s.phase with
  | exec => exact absurd hp hphase
  | scanFwd => obtain ⟨hrun, -⟩ := (phaseFits_scanFwd hp).1 hfits; exact hrun
  | scanBwd => obtain ⟨hrun, -⟩ := (phaseFits_scanBwd hp).1 hfits; exact hrun
  | waitIn => obtain ⟨hrun, -⟩ := (phaseFits_waitIn hp).1 hfits; exact hrun
  | waitOut => obtain ⟨hrun, -⟩ := (phaseFits_waitOut hp).1 hfits; exact hrun

/-! ### Updates of one part of the state -/

theorem machineInv_withHost {s : State} (h : MachineInv s) (qi : List InResp) (qo : List OutResp) :
    MachineInv (s.withHost qi qo) := { h with }

theorem machineInv_record {s : State} (h : MachineInv s) (e : Event) : MachineInv (record e s) := { h with }

theorem machineInv_outTransfer {s : State} (h : MachineInv s) (v : Byte) (o : OutResp) :
    MachineInv (outTransfer v o s) := { h with }

theorem machineInv_inTransfer {s : State} (h : MachineInv s) (r : InResp) : MachineInv (inTransfer r s) := { h with }

theorem machineInv_withDp {s : State} (h : MachineInv s) {a : Nat} (ha : a < s.cfg.tapeCap) :
    MachineInv { s with dp := a } := { h with dp_lt := ha }

theorem machineInv_tapeWrite {s : State} (h : MachineInv s) (v : Byte) :
    MachineInv { s with tape := tapeWrite s.tape s.dp v } :=
  { h with tape_wf := tapeWrite_wf v h.dp_lt h.tape_wf }

theorem machineInv_echoed {s : State} (h : MachineInv s) (r : InResp) (v : Byte) (o : OutResp) (qi : List InResp)
    (qo : List OutResp) : MachineInv (s.echoed r v o qi qo) :=
  { h with tape_wf := tapeWrite_wf v h.dp_lt h.tape_wf }

/-- The step boundary fits whatever the hidden registers hold. -/
theorem machineInv_boundary {s : State} (h : MachineInv s) : MachineInv { s with phase := .exec } :=
  { h with phase_fits := phaseFits_of_exec rfl }

/-- At a step boundary the scanner's registers have their widths alone to fit. -/
theorem machineInv_withScan {s : State} (h : MachineInv s) (hphase : s.phase = .exec) {j d : Nat}
    (hj : j ≤ s.cfg.progMax) (hd : d ≤ s.cfg.progMax) : MachineInv { s with sj := j, depth := d } :=
  { h with sj_le := hj, depth_le := hd, phase_fits := phaseFits_of_exec hphase }

theorem machineInv_withIp {s : State} (h : MachineInv s) (hphase : s.phase = .exec) {k : Nat} (hk : k ≤ s.plen) :
    MachineInv { s with ip := k } :=
  { h with ip_le_plen := fun _ => hk, ip_le_max := hk.trans h.plen_le, phase_fits := phaseFits_of_exec hphase }

/-! ### The ends of an instruction -/

theorem machineInv_advance {s : State} (h : MachineInv s) (hphase : s.phase = .exec) (hlt : s.ip < s.plen) :
    MachineInv (advance s) := machineInv_withIp h hphase hlt

theorem machineInv_raiseFault {s : State} (h : MachineInv s) {c : FaultCause} (hc : c ≠ .noFault) :
    MachineInv (raiseFault c s) :=
  { h with
    ip_le_plen := nofun
    cause_iff := iff_of_true hc rfl
    phase_fits := phaseFits_of_exec rfl }

theorem machineInv_halt {s : State} (h : MachineInv s) (hrun : s.runState = .running) (hphase : s.phase = .exec) :
    MachineInv (halt s) :=
  { h with
    ip_le_plen := nofun
    cause_iff := h.cause_iff.trans (by simp [hrun])
    phase_fits := phaseFits_of_exec hphase }

theorem machineInv_finishOutput {s : State} (h : MachineInv s) (hphase : s.phase = .exec) (hlt : s.ip < s.plen)
    (o : OutResp) : MachineInv (finishOutput o s) := by
  cases o with
  | ok => exact machineInv_advance h hphase hlt
  | err => exact machineInv_raiseFault h nofun

theorem machineInv_takeBracket {s : State} (h : MachineInv s) (hphase : s.phase = .exec) {e : ScanEnd}
    (hj : e.sj ≤ s.cfg.progMax) (hd : e.depth ≤ s.cfg.progMax) (hfound : ∀ k, e.found = some k → k < s.plen)
    {c : FaultCause} (hc : c ≠ .noFault) : MachineInv (takeBracket e c s) := by
  have hscan := machineInv_withScan h hphase hj hd
  cases hk : e.found with
  | none =>
    rw [takeBracket_of_none c s hk]
    exact machineInv_raiseFault hscan hc
  | some k =>
    rw [takeBracket_of_some c s hk]
    exact machineInv_withIp hscan hphase (hfound k hk)

/-! ### The scan's registers -/

/-- R84 for a whole forward scan: its registers never pass the program's end. -/
theorem forwardScan_le {s : State} {i : Nat} (hi : i < s.plen) :
    (forwardScan s i).sj ≤ s.plen ∧ (forwardScan s i).depth ≤ s.plen := by
  unfold forwardScan
  rcases scanForward_cases s.prog (s.plen - (i + 1)) (i + 1) 1 le_rfl with ⟨k, hk, -, hle⟩ | ⟨d, hd, -, hle⟩
  · rw [hk]
    exact ⟨by simp only; omega, Nat.zero_le _⟩
  · rw [hd]
    constructor <;> (simp only; omega)

/-- R84 for a whole backward scan; at index 0 it has not written `sj`. -/
theorem backwardScan_le {s : State} {i n : Nat} (hi : i < n) (hsj : s.sj ≤ n) :
    (backwardScan s i).sj ≤ n ∧ (backwardScan s i).depth ≤ n := by
  unfold backwardScan
  split
  · exact ⟨hsj, by simp only; omega⟩
  · rcases scanBackward_cases s.prog i 1 le_rfl with ⟨k, hk, hle⟩ | ⟨d, hd, -, hle⟩
    · rw [hk]
      exact ⟨by simp only; omega, Nat.zero_le _⟩
    · rw [hd]
      exact ⟨Nat.zero_le _, by simp only; omega⟩

/-! ### Every instruction -/

theorem dpNext_lt {c : Config} {dp : Nat} (h : dp < c.tapeCap) : dpNext c dp < c.tapeCap := by
  rw [dpNext_eq_mod h]
  exact Nat.mod_lt _ (by omega)

theorem dpPrev_lt {c : Config} {dp : Nat} (h : dp < c.tapeCap) : dpPrev c dp < c.tapeCap := by
  rw [dpPrev_eq_mod h]
  exact Nat.mod_lt _ (by omega)

theorem Executes.machineInv {i : Instr} {s t : State} (hexec : Executes s i t) (h : MachineInv s)
    (hphase : s.phase = .exec) (hlt : s.ip < s.plen) : MachineInv t := by
  cases hexec with
  | ptrInc => exact machineInv_advance (machineInv_withDp h (dpNext_lt h.dp_lt)) hphase hlt
  | ptrDec => exact machineInv_advance (machineInv_withDp h (dpPrev_lt h.dp_lt)) hphase hlt
  | cellInc | cellDec => exact machineInv_advance (machineInv_tapeWrite h _) hphase hlt
  | outputHeld | inputHeld => exact h
  | outputDone => exact machineInv_finishOutput (machineInv_outTransfer h _ _) hphase hlt _
  | inputFailed => exact machineInv_raiseFault (machineInv_inTransfer h _) nofun
  | inputDone => exact machineInv_finishOutput (machineInv_echoed h ..) hphase hlt _
  | openTaken =>
    obtain ⟨hj, hd⟩ := forwardScan_le hlt
    refine machineInv_takeBracket h hphase (hj.trans h.plen_le) (hd.trans h.plen_le) (fun k hk => ?_) nofun
    obtain ⟨-, hkn, -, -⟩ := forwardScan_found_eq_some.1 hk
    exact hkn
  | closeTaken =>
    obtain ⟨hj, hd⟩ := backwardScan_le (hlt.trans_le h.plen_le) h.sj_le
    refine machineInv_takeBracket h hphase hj hd (fun k hk => ?_) nofun
    obtain ⟨hki, -, -⟩ := backwardScan_found_eq_some.1 hk
    exact hki.trans hlt
  | openPassed | closePassed | nop => exact machineInv_advance h hphase hlt

/-! ### Every cycle -/

/-- A forward scan in progress: 1 byte moved is at most 1 bracket counted. -/
theorem machineInv_scanningFwd {s : State} (h : MachineInv s) (hrun : s.runState = .running) {j d : Nat}
    (hip : s.ip < j) (hj : j ≤ s.plen) (hd1 : 1 ≤ d) (hd2 : d ≤ j - s.ip) :
    MachineInv { s with phase := .scanFwd, sj := j, depth := d } :=
  have hj' : j ≤ s.cfg.progMax := hj.trans h.plen_le
  { h with
    sj_le := hj'
    depth_le := hd2.trans ((Nat.sub_le j s.ip).trans hj')
    phase_fits := (phaseFits_scanFwd rfl).2 ⟨hrun, hip, hj, hd1, hd2⟩ }

/-- A backward scan in progress, likewise. -/
theorem machineInv_scanningBwd {s : State} (h : MachineInv s) (hrun : s.runState = .running) {j d : Nat}
    (hj : j < s.ip) (hip : s.ip < s.plen) (hd1 : 1 ≤ d) (hd2 : d ≤ s.ip - j) :
    MachineInv { s with phase := .scanBwd, sj := j, depth := d } :=
  { h with
    sj_le := hj.le.trans h.ip_le_max
    depth_le := hd2.trans ((Nat.sub_le s.ip j).trans h.ip_le_max)
    phase_fits := (phaseFits_scanBwd rfl).2 ⟨hrun, hj, hip, hd1, hd2⟩ }

theorem machineInv_beginForward {s : State} (h : MachineInv s) (hrun : s.runState = .running) (hlt : s.ip < s.plen) :
    MachineInv (beginForward s) :=
  machineInv_scanningFwd h hrun (Nat.lt_succ_self s.ip) hlt le_rfl (by omega)

theorem machineInv_beginBackward {s : State} (h : MachineInv s) (hrun : s.runState = .running)
    (hphase : s.phase = .exec) (hlt : s.ip < s.plen) : MachineInv (beginBackward s) := by
  unfold beginBackward
  split
  next =>
    have hmax := h.plen_le
    exact machineInv_raiseFault (machineInv_withScan h hphase h.sj_le (by omega)) nofun
  next hip => exact machineInv_scanningBwd h hrun (by omega) hlt le_rfl (by omega)

/-- A wait begins, or goes on to the echo, with the instruction still at `ip`. -/
theorem machineInv_waitIn {s : State} (h : MachineInv s) (hrun : s.runState = .running) (hlt : s.ip < s.plen) :
    MachineInv { s with phase := .waitIn } :=
  { h with phase_fits := (phaseFits_waitIn rfl).2 ⟨hrun, hlt⟩ }

theorem machineInv_waitOut {s : State} (h : MachineInv s) (hrun : s.runState = .running) (hlt : s.ip < s.plen)
    (v : Byte) : MachineInv { s with obuf := v, phase := .waitOut } :=
  { h with phase_fits := (phaseFits_waitOut rfl).2 ⟨hrun, hlt⟩ }

theorem beginCycle_machineInv {s t : State} (h : MachineInv s) (hrun : s.runState = .running)
    (hphase : s.phase = .exec) (hbegin : beginCycle s = .next t) : MachineInv t := by
  rcases beginCycle_next hbegin with
    ⟨-, rfl⟩ | ⟨hlt, ⟨-, rfl | rfl | rfl⟩ | rfl | rfl | ⟨i, -, -, -, -, hexec⟩⟩
  · exact machineInv_halt h hrun hphase
  · exact machineInv_advance h hphase hlt
  · exact machineInv_beginForward h hrun hlt
  · exact machineInv_beginBackward h hrun hphase hlt
  · exact machineInv_waitIn h hrun hlt
  · exact machineInv_waitOut h hrun hlt _
  · exact (Executes.of_exec hexec).machineInv h hphase hlt

theorem machineInv_scanFwdCycle {s : State} (h : MachineInv s) (hphase : s.phase = .scanFwd) :
    MachineInv (scanFwdCycle s) := by
  obtain ⟨hrun, hip, hsj, hd1, hd2⟩ := (phaseFits_scanFwd hphase).1 h.phase_fits
  have hdepth := fwdDepth_le (s.code s.sj) s.depth
  unfold scanFwdCycle
  split
  next => exact machineInv_raiseFault h nofun
  next hin =>
    dsimp only
    split
    next =>
      have hscan := machineInv_withScan (machineInv_boundary h) rfl h.sj_le (Nat.zero_le _)
      exact machineInv_withIp hscan rfl (show s.sj + 1 ≤ s.plen by omega)
    next hd =>
      have hd' := Nat.one_le_iff_ne_zero.2 hd
      simpa only [hphase] using machineInv_scanningFwd h hrun (j := s.sj + 1) (by omega) (by omega) hd' (by omega)

theorem machineInv_scanBwdCycle {s : State} (h : MachineInv s) (hphase : s.phase = .scanBwd) :
    MachineInv (scanBwdCycle s) := by
  obtain ⟨hrun, hsj, hip, hd1, hd2⟩ := (phaseFits_scanBwd hphase).1 h.phase_fits
  have hmax := h.plen_le
  have hdepth := bwdDepth_le (s.code s.sj) s.depth
  have hscan {d : Nat} (hd : d ≤ s.cfg.progMax) := machineInv_withScan (machineInv_boundary h) rfl h.sj_le hd
  unfold scanBwdCycle
  dsimp only
  split
  next => exact machineInv_withIp (hscan (Nat.zero_le _)) rfl (show s.sj + 1 ≤ s.plen by omega)
  next hd =>
    split
    next => exact machineInv_raiseFault (hscan (by omega)) nofun
    next hsj0 =>
      have hd' := Nat.one_le_iff_ne_zero.2 hd
      simpa only [hphase] using machineInv_scanningBwd h hrun (j := s.sj - 1) (by omega) hip hd' (by omega)

theorem acceptInput_machineInv {r : InResp} {s t : State} (h : MachineInv s) (hphase : s.phase = .waitIn)
    (hin : acceptInput r s = .next t) : MachineInv t := by
  obtain ⟨hrun, hlt⟩ := (phaseFits_waitIn hphase).1 h.phase_fits
  rcases acceptInput_next hin with ⟨-, rfl⟩ | ⟨v, -, -, rfl⟩
  · exact machineInv_raiseFault (machineInv_record h _) nofun
  · exact machineInv_waitOut (machineInv_tapeWrite (machineInv_record h _) v) hrun hlt v

theorem machineInv_acceptOutput {s : State} (h : MachineInv s) (hphase : s.phase = .waitOut) (o : OutResp) :
    MachineInv (acceptOutput o s) := by
  obtain ⟨-, hlt⟩ := (phaseFits_waitOut hphase).1 h.phase_fits
  exact machineInv_finishOutput (machineInv_boundary (machineInv_record h _)) rfl hlt o

theorem cycle_machineInv {rin : Option InResp} {rout : Option OutResp} {s t : State} (h : MachineInv s)
    (hrun : s.runState = .running) (hcycle : cycle rin rout s = .next t) : MachineInv t := by
  rcases cycle_next hcycle with
    ⟨hphase, hbegin⟩ | ⟨hphase, rfl⟩ | ⟨hphase, rfl⟩ | ⟨-, rfl⟩ | ⟨hphase, r, -, hin⟩ | ⟨hphase, o, -, rfl⟩
  · exact beginCycle_machineInv h hrun hphase hbegin
  · exact machineInv_scanFwdCycle h hphase
  · exact machineInv_scanBwdCycle h hphase
  · exact h
  · exact acceptInput_machineInv h hphase hin
  · exact machineInv_acceptOutput h hphase o

/-! ### The step -/

/-- Settles O43: a step is a stop, a halt, an instruction, or a cycle, and each keeps the invariant. -/
theorem stepKeepsTheInvariant : Obligations.StepKeepsTheInvariant := by
  intro s t h hstep
  by_cases hphase : s.phase = .exec
  · rcases step_cases_of_exec hphase hstep with ⟨-, rfl⟩ | ⟨hrun, -, rfl⟩ | ⟨hready, hexec⟩
    · exact h
    · exact machineInv_halt h hrun hphase
    · exact hexec.machineInv h hphase hready.in_program
  · have hrun : s.runState = .running := running_of_phase h hphase
    rw [step_of_running hrun] at hstep
    rcases midStep_next hstep with ⟨hexec, -⟩ | ⟨-, rin, rout, qi, qo, hcycle⟩
    · exact absurd hexec hphase
    · exact cycle_machineInv (machineInv_withHost h qi qo) hrun hcycle

/-! ### The clock edge -/

theorem machineInv_hwReset {s : State} (h : MachineInv s) : MachineInv (hwReset s) where
  cfg_valid := h.cfg_valid
  plen_le := h.plen_le
  dp_lt := h.cfg_valid.1
  ip_le_plen _ := Nat.zero_le _
  ip_le_max := Nat.zero_le _
  sj_le := Nat.zero_le _
  depth_le := Nat.zero_le _
  prog_wf := h.prog_wf
  tape_wf := Memory.wf_nil _ _
  cause_iff := iff_of_false (· rfl) nofun
  phase_fits := phaseFits_of_exec rfl

/-- The load port is accepted where no run depends on the length: in a stopped block, and with `ip` at 0. -/
theorem machineInv_loadPort {s : State} (h : MachineInv s) (hphase : s.phase = .exec)
    (hip : s.runState = .running → s.ip = 0) (p : Pins) : MachineInv (loadPort p s) := by
  rw [loadPort_eq]
  refine { h with
    plen_le := ?_
    ip_le_plen := fun hrun => ?_
    prog_wf := ?_
    phase_fits := phaseFits_of_exec hphase }
  · dsimp only
    split
    next hwe => exact hwe.2
    next => exact h.plen_le
  · simp only [hip hrun, Nat.zero_le]
  · dsimp only
    split
    next hwe => exact progWrite_wf _ hwe.2 h.prog_wf
    next => exact h.prog_wf

/-- Settles O44: an edge is a reset, a cycle of a RUNNING block, or the load port of a stopped one. -/
theorem clockEdgeKeepsTheInvariant : Obligations.ClockEdgeKeepsTheInvariant := by
  intro p s t h hedge
  by_cases hrst : p.rst = true
  · rw [clockEdge_of_rst hrst] at hedge
    cases hedge
    exact machineInv_loadPort (machineInv_hwReset h) rfl (fun _ => rfl) p
  · rw [Bool.not_eq_true] at hrst
    by_cases hrun : s.runState = .running
    · rw [clockEdge_of_running hrst hrun] at hedge
      exact cycle_machineInv h hrun hedge
    · rw [clockEdge_of_stopped hrst hrun] at hedge
      cases hedge
      have hphase : s.phase = .exec := not_not.1 (mt (running_of_phase h) hrun)
      exact machineInv_loadPort h hphase (fun hrun' => absurd hrun' hrun) p

/-! ### Where a run begins -/

theorem risesFrom_programCells (i : Nat) (bytes : List Byte) : (programCells i bytes).risesFrom i = true := by
  induction bytes generalizing i with
  | nil => rfl
  | cons b bs ih => simp [programCells, Memory.risesFrom, ih]

theorem lt_of_mem_programCells {i : Nat} {bytes : List Byte} {c : Host.Cell} (h : c ∈ programCells i bytes) :
    c.1 < i + bytes.length := by
  induction bytes generalizing i with
  | nil => cases h
  | cons b bs ih =>
    rcases List.mem_cons.1 h with rfl | hmem
    · simp
    · have hlt := ih hmem
      rw [List.length_cons]
      omega

/-- Any byte may be written to the program, so its cells need only rise and lie in the program memory. -/
theorem programCells_wf {n : Nat} {bytes : List Byte} (h : bytes.length ≤ n) :
    (programCells 0 bytes).wf n progBlank = true := by
  refine Memory.wf_iff.2 ⟨risesFrom_programCells 0 bytes, fun c hc => ⟨?_, nofun⟩⟩
  have hlt := lt_of_mem_programCells hc
  omega

theorem machineInv_launch {c : Config} {bytes : List Byte} (qi : List InResp) (qo : List OutResp) (hc : c.valid)
    (hlen : bytes.length ≤ c.progMax) : MachineInv (launch c bytes qi qo) where
  cfg_valid := hc
  plen_le := hlen
  dp_lt := hc.1
  ip_le_plen _ := Nat.zero_le _
  ip_le_max := Nat.zero_le _
  sj_le := Nat.zero_le _
  depth_le := Nat.zero_le _
  prog_wf := programCells_wf hlen
  tape_wf := Memory.wf_nil _ _
  cause_iff := iff_of_false (· rfl) nofun
  phase_fits := phaseFits_of_exec rfl

/-- Settles O42: the launched registers are those of reset, and the program's cells are canonical. -/
theorem launchedMachineMeetsTheInvariant : Obligations.LaunchedMachineMeetsTheInvariant :=
  fun c bytes qi qo hc hlen => ⟨machineInv_launch qi qo hc hlen, fun _ => code_launch c bytes qi qo⟩

/-- Settles O41: the reset state is the standard build launched with no program. -/
theorem resetStateMeetsTheInvariant : Obligations.ResetStateMeetsTheInvariant :=
  machineInv_launch (c := Config.standard) (bytes := []) [] [] (by decide) (Nat.zero_le _)

/-! PROOF. 70_reset_and_hazards.md R117: every step completes. -/

theorem exists_acceptInput_eq_next (r : InResp) {s : State} (hd : s.dp < s.cfg.tapeCap) :
    ∃ t, acceptInput r s = .next t := by
  unfold acceptInput
  split
  next => exact ⟨_, rfl⟩
  next v _ => exact ⟨_, storeAcc_of_lt (s := record (.inp r) s) hd v _⟩

theorem exists_boundaryStep_eq_next {s : State} (hd : s.dp < s.cfg.tapeCap) : ∃ t, boundaryStep s = .next t := by
  rcases Nat.lt_or_ge s.ip s.plen with hlt | hge
  · rw [boundaryStep_of_lt hlt]
    exact exists_exec_eq_next _ hd
  · exact ⟨_, boundaryStep_of_ge hge⟩

/-- In the middle of an instruction only an input transfer uses the current cell. -/
theorem exists_midStep_eq_next {s : State} (hd : s.dp < s.cfg.tapeCap) : ∃ t, midStep s = .next t := by
  unfold midStep
  cases hphase : s.phase with
  | exec => exact exists_boundaryStep_eq_next hd
  | scanFwd | scanBwd =>
    simp only [cycle, hphase]
    exact ⟨_, rfl⟩
  | waitIn =>
    simp only [cycle]
    split
    next => exact ⟨_, rfl⟩
    next r _ => exact exists_acceptInput_eq_next r hd
  | waitOut =>
    simp only [cycle]
    split <;> exact ⟨_, rfl⟩

/-- Settles O8: the invariant's `dp < TAPE_CAP` is all that a step asks for. -/
theorem everyStepCompletes : Obligations.EveryStepCompletes := by
  intro s h
  by_cases hrun : s.runState = .running
  · rw [step_of_running hrun]
    exact exists_midStep_eq_next h.dp_lt
  · exact ⟨s, step_of_stopped hrun⟩

/-! PROOF. 00_scope.md R7: the register widths. -/

theorem clog2_le_iff {n w : Nat} : clog2 n ≤ w ↔ n ≤ 2 ^ w := by
  unfold clog2
  split
  next hn => exact iff_of_true (Nat.zero_le w) (hn.trans Nat.one_le_two_pow)
  next hn =>
    have hpos : n - 1 ≠ 0 := by omega
    have hlog := Nat.log2_lt hpos (k := w)
    omega

theorem dpWidth_le_iff {c : Config} {w : Nat} : dpWidth c ≤ w ↔ 1 ≤ w ∧ c.tapeCap ≤ 2 ^ w := by
  rw [dpWidth, max_le_iff, clog2_le_iff]

theorem ipWidth_le_iff {c : Config} {w : Nat} : ipWidth c ≤ w ↔ 1 ≤ w ∧ c.progMax + 1 ≤ 2 ^ w := by
  rw [ipWidth, max_le_iff, clog2_le_iff]

/-- R84: the nesting counter of a scan in progress counts at least its own bracket, and at most the program's. -/
theorem depth_bounds_of_scan {s : State} (h : MachineInv s) (hscan : s.phase = .scanFwd ∨ s.phase = .scanBwd) :
    1 ≤ s.depth ∧ s.depth ≤ s.plen := by
  rcases hscan with hphase | hphase
  · obtain ⟨-, -, hsj, hd1, hd2⟩ := (phaseFits_scanFwd hphase).1 h.phase_fits
    omega
  · obtain ⟨-, -, hip, hd1, hd2⟩ := (phaseFits_scanBwd hphase).1 h.phase_fits
    omega

/-- Settles O46: a width is the least whose power of two tells the values of the register's range apart. -/
theorem registersFitTheirWidths : Obligations.RegistersFitTheirWidths := by
  refine ⟨fun s h => ?_, fun c w => ⟨dpWidth_le_iff, ipWidth_le_iff, ipWidth_le_iff⟩, fun n w _ => clog2_le_iff⟩
  obtain ⟨-, htape⟩ := dpWidth_le_iff.1 (le_refl (dpWidth s.cfg))
  obtain ⟨-, hprog⟩ := ipWidth_le_iff.1 (le_refl (ipWidth s.cfg))
  have fits {n : Nat} (hn : n ≤ s.cfg.progMax) : n < 2 ^ ipWidth s.cfg := (Nat.lt_succ_of_le hn).trans_le hprog
  exact ⟨h.dp_lt.trans_le htape, fits h.ip_le_max, fits h.plen_le, fits h.sj_le, fits h.depth_le,
    depth_bounds_of_scan h⟩

end Sys2Proof.Machine

namespace Sys2Proof.Machine

/-! PROOF. 70_reset_and_hazards.md, 20_memory.md section 5: stops, reset, the load port and the boot. -/

theorem cycle_of_waitIn_idle {s : State} (rout : Option OutResp) (hphase : s.phase = .waitIn) :
    cycle none rout s = .next s := by
  simp only [cycle, hphase]

theorem cycle_of_waitOut_idle {s : State} (rin : Option InResp) (hphase : s.phase = .waitOut) :
    cycle rin none s = .next s := by
  simp only [cycle, hphase]

theorem inResponse_of_not_valid {p : Pins} (h : p.inValid = false) : p.inResponse = none := by
  simp [Pins.inResponse, h]

theorem outResponse_of_not_ready {p : Pins} (h : p.outReady = false) : p.outResponse = none := by
  simp [Pins.outResponse, h]

/-- Settles O31: a stopped block is open to the load port alone, and a wait offered nothing is a cycle that changes
nothing. -/
theorem stoppedOrWaitingBlockKeepsItsState : Obligations.StoppedOrWaitingBlockKeepsItsState := by
  refine ⟨fun s => step_of_stopped, fun p s t hrst hstop h => ?_, fun p s hrst hrun hphase hvalid => ?_,
    fun p s hrst hrun hphase hready => ?_⟩
  · rw [clockEdge_of_stopped hrst hstop, loadPort_eq] at h
    cases h
    rfl
  · rw [clockEdge_of_running hrst hrun, inResponse_of_not_valid hvalid, cycle_of_waitIn_idle _ hphase]
  · rw [clockEdge_of_running hrst hrun, outResponse_of_not_ready hready, cycle_of_waitOut_idle _ hphase]

/-- Settles O34: the reset state is ready to execute the byte at index 0 wherever there is one. -/
theorem executionStartsAtTheFirstByte : Obligations.ExecutionStartsAtTheFirstByte := by
  refine ⟨fun _ => rfl, rfl, rfl, rfl, rfl, rfl, rfl, rfl, rfl, fun s hpos => ?_⟩
  have hready : Ready (hwReset s) := ⟨hwReset_runState s, hwReset_phase s, hpos⟩
  exact step_of_ready hready

/-- R106: a reset leaves nothing of a state but the build, the program and the host's answers. -/
theorem hwReset_congr {s u : State} (hcfg : s.cfg = u.cfg) (hprog : s.prog = u.prog) (hplen : s.plen = u.plen)
    (hinQ : s.inQ = u.inQ) (houtQ : s.outQ = u.outQ) : hwReset s = hwReset u := by
  simp only [hwReset, hcfg, hprog, hplen, hinQ, houtQ]

/-- Settles O35: a reset edge reads its state through the reset only. -/
theorem resetAbortsAnyRun : Obligations.ResetAbortsAnyRun := by
  intro p s u hrst hcfg hprog hplen hinQ houtQ
  rw [clockEdge_of_rst hrst, clockEdge_of_rst hrst, hwReset_congr hcfg hprog hplen hinQ houtQ]

/-! ### The load port -/

theorem progByte_progWrite (m : Memory) (a : Nat) (v : Byte) (i : Nat) :
    progByte (progWrite m a v) i = if i = a then v else progByte m i := by
  split
  next heq => rw [heq, progByte_progWrite_self]
  next hne => exact progByte_progWrite_ne hne m v

theorem code_loadPort (p : Pins) (s : State) (i : Nat) :
    (loadPort p s).code i =
      if p.progWe = true ∧ p.progAddr < s.cfg.progMax ∧ i = p.progAddr then p.progWdata else s.code i := by
  rw [loadPort_eq, State.code]
  by_cases hwe : p.progWe = true ∧ p.progAddr < s.cfg.progMax
  · simp [hwe, progByte_progWrite, State.code]
  · have hno : ¬ (p.progWe = true ∧ p.progAddr < s.cfg.progMax ∧ i = p.progAddr) := fun ⟨hen, haddr, _⟩ =>
      hwe ⟨hen, haddr⟩
    rw [if_neg hno, if_neg hwe, State.code]

theorem plen_loadPort (p : Pins) (s : State) :
    (loadPort p s).plen = if p.plenWe = true ∧ p.plenWdata ≤ s.cfg.progMax then p.plenWdata else s.plen := by
  rw [loadPort_eq]

/-- Settles O37: the port is accepted at a reset edge, which has kept the program, and in a stopped block. -/
theorem loadPortWritesOnlyWhenAccepted : Obligations.LoadPortWritesOnlyWhenAccepted := by
  refine ⟨fun p s haccept => ?_, fun p s t hrst hrun h => ?_⟩
  · by_cases hrst : p.rst = true
    · exact ⟨_, clockEdge_of_rst hrst, code_loadPort p (hwReset s), plen_loadPort p (hwReset s)⟩
    · have hstop : s.runState ≠ .running := haccept.resolve_left hrst
      rw [Bool.not_eq_true] at hrst
      exact ⟨_, clockEdge_of_stopped hrst hstop, code_loadPort p s, plen_loadPort p s⟩
  · obtain ⟨-, -, hedge⟩ := programIsReadOnlyWhileRunning
    obtain ⟨hprog, hplen, -⟩ := hedge p s t hrst hrun h
    exact ⟨hprog, hplen⟩

/-! ### The boot -/

/-- A program memory after its bytes from index `i` on are written. -/
def progWriteFrom : Nat → List Byte → Memory → Memory
  | _, [], m => m
  | i, b :: bs, m => progWriteFrom (i + 1) bs (progWrite m i b)

theorem progByte_progWriteFrom_of_outside {i : Nat} {bytes : List Byte} (m : Memory) {j : Nat}
    (h : j < i ∨ i + bytes.length ≤ j) : progByte (progWriteFrom i bytes m) j = progByte m j := by
  induction bytes generalizing i m with
  | nil => rfl
  | cons b bs ih =>
    rw [List.length_cons] at h
    rw [progWriteFrom, ih _ (by omega), progByte_progWrite_ne (by omega)]

theorem progByte_progWriteFrom (i : Nat) {bytes : List Byte} (m : Memory) {j : Nat} (h : j < bytes.length) :
    progByte (progWriteFrom i bytes m) (i + j) = bytes[j] := by
  induction bytes generalizing i j m with
  | nil => exact absurd h (Nat.not_lt_zero j)
  | cons b bs ih =>
    cases j with
    | zero => rw [progWriteFrom, progByte_progWriteFrom_of_outside _ (by omega), Nat.add_zero,
        progByte_progWrite_self, List.getElem_cons_zero]
    | succ j =>
      have hidx : i + (j + 1) = i + 1 + j := by omega
      rw [progWriteFrom, hidx, ih (i + 1) _ (Nat.lt_of_succ_lt_succ h), List.getElem_cons_succ]

theorem clockRun_cons_of_clockEdge {p : Pins} {s t : State} (ps : List Pins) (h : clockEdge p s = .next t) :
    clockRun (p :: ps) s = clockRun ps t := by
  simp only [clockRun, h]

theorem clockEdge_writeByte {s : State} {i : Nat} (b : Byte) (hi : i < s.cfg.progMax) :
    clockEdge (Pins.writeByte i b) s = .next { hwReset s with prog := progWrite s.prog i b } := by
  rw [clockEdge_of_rst rfl, loadPort_eq]
  simp [Pins.writeByte, Pins.idle, hi]

theorem clockEdge_writeLength {s : State} {n : Nat} (hn : n ≤ s.cfg.progMax) :
    clockEdge (Pins.writeLength n) s = .next { hwReset s with plen := n } := by
  rw [clockEdge_of_rst rfl, loadPort_eq]
  simp [Pins.writeLength, Pins.idle, hn]

/-- Each edge of the boot resets again what is reset, and adds its one write. -/
theorem clockRun_bootBytes {i n : Nat} {bytes : List Byte} {s : State} (hlen : i + bytes.length ≤ s.cfg.progMax)
    (hn : n ≤ s.cfg.progMax) :
    clockRun (bootBytes i bytes ++ [Pins.writeLength n]) s =
      .next { hwReset s with prog := progWriteFrom i bytes s.prog, plen := n } := by
  induction bytes generalizing i s with
  | nil => exact clockRun_cons_of_clockEdge [] (clockEdge_writeLength hn)
  | cons b bs ih =>
    rw [List.length_cons] at hlen
    have hedge := clockEdge_writeByte (s := s) b (show i < s.cfg.progMax by omega)
    calc clockRun (bootBytes i (b :: bs) ++ [Pins.writeLength n]) s
        = clockRun (bootBytes (i + 1) bs ++ [Pins.writeLength n]) { hwReset s with prog := progWrite s.prog i b } :=
          clockRun_cons_of_clockEdge _ hedge
      _ = .next { hwReset s with prog := progWriteFrom i (b :: bs) s.prog, plen := n } :=
          ih (by simp only [hwReset_cfg]; omega) hn

/-- Settles O38: the boot's edges leave the reset state with the bytes written one by one from index 0. -/
theorem bootLoadsTheProgram : Obligations.BootLoadsTheProgram := by
  intro s bytes hlen
  have hrun := clockRun_bootBytes (i := 0) (s := s) (bytes := bytes) (by omega) hlen
  refine ⟨_, hrun, rfl, fun i hi => ?_, fun i hi => ?_, rfl⟩
  · have hbyte := progByte_progWriteFrom 0 s.prog hi
    rwa [Nat.zero_add] at hbyte
  · exact progByte_progWriteFrom_of_outside s.prog (.inr (by omega))

/-! ### The ports -/

theorem RunState.bits_injective : Function.Injective RunState.bits := by
  intro a b
  cases a <;> cases b <;> decide

theorem RunState.bits_ne_three (r : RunState) : r.bits ≠ 0b11 := by
  cases r <;> decide

theorem FaultCause.bits_eq_zero_iff {c : FaultCause} : c.bits = 0 ↔ c = .noFault := by
  cases c <;> decide

theorem FaultCause.bits_lt_five (c : FaultCause) : c.bits < 5 := by
  cases c <;> decide

/-- Settles O40: the handshakes are the two waits, and the status codes tell their registers' values apart. -/
theorem portsShowPhaseAndStatus : Obligations.PortsShowPhaseAndStatus := by
  intro reading s
  have code_iff (r : RunState) : (outputs reading s).runState = r.bits ↔ s.runState = r :=
    RunState.bits_injective.eq_iff
  exact ⟨beq_iff_eq, beq_iff_eq, outData_of_waitOut reading, code_iff .running, code_iff .halted, code_iff .fault,
    RunState.bits_ne_three s.runState, FaultCause.bits_eq_zero_iff, FaultCause.bits_lt_five s.faultCause⟩

end Sys2Proof.Machine

namespace Sys2Proof.Machine

/-! PROOF. 43_control_flow.md R86, 42_io.md R76: the clocked build reaches the atomic step's state. -/

/-! ### The first return to a step boundary -/

/-- At the `n`-th edge with the signals `p` the block first returns to EXEC, in `u`. -/
inductive ReturnsIn (p : Pins) : Nat → State → State → Prop
  | last {s u : State} (hedge : clockEdge p s = .next u) (hphase : u.phase = .exec) : ReturnsIn p 1 s u
  | cons {n : Nat} {s v u : State} (hedge : clockEdge p s = .next v) (hphase : v.phase ≠ .exec)
      (hrest : ReturnsIn p n v u) : ReturnsIn p (n + 1) s u

section
variable {p : Pins} {n : Nat} {s u : State}

theorem ReturnsIn.pos (h : ReturnsIn p n s u) : 1 ≤ n := by
  cases h <;> omega

theorem ReturnsIn.phase_eq_exec (h : ReturnsIn p n s u) : u.phase = .exec := by
  induction h with
  | last _ hphase => exact hphase
  | cons _ _ _ ih => exact ih

theorem ReturnsIn.clockRun_eq (h : ReturnsIn p n s u) : clockRun (List.replicate n p) s = .next u := by
  induction h with
  | last hedge _ => exact clockRun_cons_of_clockEdge [] hedge
  | cons hedge _ _ ih => exact (clockRun_cons_of_clockEdge _ hedge).trans ih

/-- Before the last edge the block is in the middle of the instruction. -/
theorem ReturnsIn.exists_clockRun_of_lt (h : ReturnsIn p n s u) {m : Nat} (hpos : 0 < m) (hlt : m < n) :
    ∃ v, clockRun (List.replicate m p) s = .next v ∧ v.phase ≠ .exec := by
  induction h generalizing m with
  | last => omega
  | @cons n s w u hedge hphase _ ih =>
    obtain ⟨m, rfl⟩ := Nat.exists_eq_add_of_le' hpos
    have hrun : clockRun (List.replicate (m + 1) p) s = clockRun (List.replicate m p) w :=
      clockRun_cons_of_clockEdge _ hedge
    rw [hrun]
    cases m with
    | zero => exact ⟨w, rfl, hphase⟩
    | succ m => exact ih (Nat.succ_pos m) (by omega)

end

/-! ### The scan, cycle by cycle -/

/-- A taken bracket writes the scan's registers whatever they were. -/
theorem takeBracket_withScan (e : ScanEnd) (c : FaultCause) (s : State) (j d : Nat) :
    takeBracket e c { s with sj := j, depth := d } = takeBracket e c s := by
  simp only [takeBracket_eq]

theorem takeBracket_resume {s : State} (h : s.phase = .exec) (e : ScanEnd) (c : FaultCause) (j d : Nat) :
    takeBracket e c { s with phase := .exec, sj := j, depth := d } = takeBracket e c s := by
  simp only [takeBracket_eq, h]

theorem withPhase_exec {s : State} (h : s.phase = .exec) : { s with phase := .exec } = s := by
  rw [← h]

theorem clockEdge_scanFwd {p : Pins} {s : State} (hrst : p.rst = false) (hrun : s.runState = .running)
    (hphase : s.phase = .scanFwd) : clockEdge p s = .next (scanFwdCycle s) := by
  rw [clockEdge_of_running hrst hrun]
  simp only [cycle, hphase]

theorem clockEdge_scanBwd {p : Pins} {s : State} (hrst : p.rst = false) (hrun : s.runState = .running)
    (hphase : s.phase = .scanBwd) : clockEdge p s = .next (scanBwdCycle s) := by
  rw [clockEdge_of_running hrst hrun]
  simp only [cycle, hphase]

/-! #### One pass of each loop, of the scan and of its cycle -/

theorem scanForward_of_zero {p : Memory} {j d : Nat} (left : Nat) (h : fwdDepth (progByte p j) d = 0) :
    scanForward p (left + 1) j d = { found := some j, sj := j, depth := 0 } := if_pos h

theorem scanForward_of_ne_zero {p : Memory} {j d : Nat} (left : Nat) (h : fwdDepth (progByte p j) d ≠ 0) :
    scanForward p (left + 1) j d = scanForward p left (j + 1) (fwdDepth (progByte p j) d) := if_neg h

theorem scanBackward_of_zero {p : Memory} {j d : Nat} (h : bwdDepth (progByte p j) d = 0) :
    scanBackward p (j + 1) d = { found := some j, sj := j, depth := 0 } := if_pos h

theorem scanBackward_of_ne_zero {p : Memory} {j d : Nat} (h : bwdDepth (progByte p j) d ≠ 0) :
    scanBackward p (j + 1) d = scanBackward p j (bwdDepth (progByte p j) d) := if_neg h

theorem scanFwdCycle_of_end {s : State} (h : s.plen ≤ s.sj) : scanFwdCycle s = raiseFault .unmatchedOpen s := if_pos h

theorem scanFwdCycle_of_zero {s : State} (h : s.sj < s.plen) (hd : fwdDepth (s.code s.sj) s.depth = 0) :
    scanFwdCycle s = advance { s with ip := s.sj, depth := 0, phase := .exec } :=
  (if_neg (Nat.not_le.2 h)).trans (if_pos hd)

theorem scanFwdCycle_of_ne_zero {s : State} (h : s.sj < s.plen) (hd : fwdDepth (s.code s.sj) s.depth ≠ 0) :
    scanFwdCycle s = { s with sj := s.sj + 1, depth := fwdDepth (s.code s.sj) s.depth } :=
  (if_neg (Nat.not_le.2 h)).trans (if_neg hd)

theorem scanBwdCycle_of_zero {s : State} {j : Nat} (hj : s.sj = j) (hd : bwdDepth (s.code j) s.depth = 0) :
    scanBwdCycle s = advance { s with ip := j, sj := j, depth := 0, phase := .exec } := by
  obtain rfl := hj
  exact if_pos hd

theorem scanBwdCycle_of_start {s : State} (hj : s.sj = 0) (hd : bwdDepth (s.code 0) s.depth ≠ 0) :
    scanBwdCycle s = raiseFault .unmatchedClose { s with sj := 0, depth := bwdDepth (s.code 0) s.depth } := by
  simp [scanBwdCycle, hj, hd]

theorem scanBwdCycle_of_ne_zero {s : State} {j : Nat} (hj : s.sj = j + 1)
    (hd : bwdDepth (s.code (j + 1)) s.depth ≠ 0) :
    scanBwdCycle s = { s with sj := j, depth := bwdDepth (s.code (j + 1)) s.depth } := by
  simp [scanBwdCycle, hj, hd]

/-- One cycle examines one byte of R80's loop; running off the end takes a cycle of its own. -/
theorem returnsIn_of_scanFwd {p : Pins} {s : State} (left : Nat) (hrst : p.rst = false)
    (hrun : s.runState = .running) (hphase : s.phase = .scanFwd) (hleft : s.sj + left = s.plen) :
    ∃ n, n ≤ left + 1 ∧ ReturnsIn p n s
      (takeBracket (scanForward s.prog left s.sj s.depth) .unmatchedOpen { s with phase := .exec }) := by
  have hedge := clockEdge_scanFwd hrst hrun hphase
  induction left generalizing s with
  | zero =>
    rw [scanFwdCycle_of_end (by omega)] at hedge
    exact ⟨1, by omega, .last hedge rfl⟩
  | succ left ih =>
    have hin : s.sj < s.plen := by omega
    by_cases hd : fwdDepth (s.code s.sj) s.depth = 0
    · rw [scanFwdCycle_of_zero hin hd] at hedge
      rw [scanForward_of_zero left hd]
      exact ⟨1, by omega, .last hedge rfl⟩
    · rw [scanFwdCycle_of_ne_zero hin hd] at hedge
      obtain ⟨n, hn, hreturns⟩ := ih (s := { s with sj := s.sj + 1, depth := fwdDepth (s.code s.sj) s.depth })
        hrun hphase (by simp only; omega) (clockEdge_scanFwd hrst hrun hphase)
      rw [scanForward_of_ne_zero left hd, ← takeBracket_withScan _ _ { s with phase := .exec }]
      exact ⟨n + 1, by omega, .cons hedge (by simp [hphase]) hreturns⟩

/-- One cycle examines one byte of R81's loop; the cycle of the byte at index 0 also runs off the start. -/
theorem returnsIn_of_scanBwd {p : Pins} {s : State} {j : Nat} (hrst : p.rst = false)
    (hrun : s.runState = .running) (hphase : s.phase = .scanBwd) (hj : s.sj = j) :
    ∃ n, n ≤ j + 1 ∧ ReturnsIn p n s
      (takeBracket (scanBackward s.prog (j + 1) s.depth) .unmatchedClose { s with phase := .exec }) := by
  induction j using Nat.strong_induction_on generalizing s with
  | _ j ih =>
    have hedge := clockEdge_scanBwd hrst hrun hphase
    by_cases hd : bwdDepth (s.code j) s.depth = 0
    · rw [scanBwdCycle_of_zero hj hd] at hedge
      rw [scanBackward_of_zero hd]
      exact ⟨1, by omega, .last hedge rfl⟩
    · rw [scanBackward_of_ne_zero hd]
      cases j with
      | zero =>
        rw [scanBwdCycle_of_start hj hd] at hedge
        exact ⟨1, le_rfl, .last hedge rfl⟩
      | succ j =>
        rw [scanBwdCycle_of_ne_zero hj hd] at hedge
        obtain ⟨n, hn, hreturns⟩ := ih j (Nat.lt_succ_self j)
          (s := { s with sj := j, depth := bwdDepth (s.code (j + 1)) s.depth }) hrun hphase rfl
        rw [← takeBracket_withScan _ _ { s with phase := .exec }]
        exact ⟨n + 1, by omega, .cons hedge (by simp [hphase]) hreturns⟩

/-- R80 by cycles: from the edge that began the scan to the bracket taken with the whole scan's end. -/
theorem returnsIn_of_beginForward {p : Pins} {s : State} (hrst : p.rst = false) (h : Ready s) :
    ∃ n, n ≤ s.plen - s.ip ∧
      ReturnsIn p n (beginForward s) (takeBracket (forwardScan s s.ip) .unmatchedOpen s) := by
  have hlt := h.in_program
  have hleft : (beginForward s).sj + (s.plen - (s.ip + 1)) = (beginForward s).plen := by
    rw [beginForward_sj, beginForward_plen]
    omega
  obtain ⟨n, hn, hscan⟩ := returnsIn_of_scanFwd (s := beginForward s) _ hrst h.running rfl hleft
  refine ⟨n, by omega, ?_⟩
  rw [← takeBracket_resume h.boundary _ _ (s.ip + 1) 1]
  exact hscan

/-- R81 by cycles, from an index above 0. -/
theorem returnsIn_of_beginBackward {p : Pins} {s : State} (hrst : p.rst = false) (h : Ready s) (hip : s.ip ≠ 0) :
    ∃ n, n ≤ s.ip ∧ ReturnsIn p n (beginBackward s) (takeBracket (backwardScan s s.ip) .unmatchedClose s) := by
  obtain ⟨j, hj⟩ := Nat.exists_eq_succ_of_ne_zero hip
  obtain ⟨n, hn, hscan⟩ := returnsIn_of_scanBwd (j := j)
    (s := { s with depth := 1, sj := j, phase := .scanBwd }) hrst h.running rfl rfl
  have hbegin : beginBackward s = { s with depth := 1, sj := j, phase := .scanBwd } := by
    simp [beginBackward, hj]
  have hend : backwardScan s s.ip = scanBackward s.prog (j + 1) 1 := by
    rw [backwardScan, if_neg hip, hj]
  refine ⟨n, by omega, ?_⟩
  rw [hbegin, hend, ← takeBracket_resume h.boundary _ _ j 1]
  exact hscan

/-! ### Every instruction -/

section
variable {s : State} {r : InResp} {o : OutResp}

/-- The clocked build, offered the answers `r` and `o` at every edge, first returns to a step boundary within the bound
of R86, in the state of the atomic step but for the queues. -/
def Refines (r : InResp) (o : OutResp) (s : State) : Prop :=
  ∃ n t u, n ≤ s.plen + 2 ∧ step s = .next t ∧ ReturnsIn (Pins.answering r o) n s u ∧ t = u.withHost t.inQ t.outQ

theorem clockEdge_answering (hrun : s.runState = .running) :
    clockEdge (Pins.answering r o) s = cycle (some r) (some o) s := by
  rw [clockEdge_of_running rfl hrun, inResponse_answering, outResponse_answering]

theorem clockEdge_of_ready (h : Ready s) : clockEdge (Pins.answering r o) s = beginCycle s := by
  rw [clockEdge_answering h.running]
  simp only [cycle, h.boundary]

theorem clockEdge_of_waitIn (hrun : s.runState = .running) (hphase : s.phase = .waitIn) :
    clockEdge (Pins.answering r o) s = acceptInput r s := by
  rw [clockEdge_answering hrun]
  simp only [cycle, hphase]

theorem clockEdge_of_waitOut (hrun : s.runState = .running) (hphase : s.phase = .waitOut) :
    clockEdge (Pins.answering r o) s = .next (acceptOutput o s) := by
  rw [clockEdge_answering hrun]
  simp only [cycle, hphase]

/-! #### The first cycle of each instruction -/

theorem beginCycle_of_output (h : Ready s) (hd : s.dp < s.cfg.tapeCap) (hfetch : fetch s = .output) :
    beginCycle s = .next { s with obuf := s.cell s.dp, phase := .waitOut } := by
  unfold fetch at hfetch
  simp only [beginCycle, Nat.not_le.2 h.in_program, if_false, hfetch, withAcc_of_lt hd]

theorem beginCycle_of_input (h : Ready s) (hfetch : fetch s = .input) :
    beginCycle s = .next { s with phase := .waitIn } := by
  unfold fetch at hfetch
  simp only [beginCycle, Nat.not_le.2 h.in_program, if_false, hfetch]

theorem beginCycle_of_loopOpen (h : Ready s) (hd : s.dp < s.cfg.tapeCap) (hfetch : fetch s = .loopOpen) :
    beginCycle s = .next (if aluZero (s.cell s.dp) then beginForward s else advance s) := by
  unfold fetch at hfetch
  simp only [beginCycle, Nat.not_le.2 h.in_program, if_false, hfetch, withAcc_of_lt hd]

theorem beginCycle_of_loopClose (h : Ready s) (hd : s.dp < s.cfg.tapeCap) (hfetch : fetch s = .loopClose) :
    beginCycle s = .next (if aluZero (s.cell s.dp) then advance s else beginBackward s) := by
  unfold fetch at hfetch
  simp only [beginCycle, Nat.not_le.2 h.in_program, if_false, hfetch, withAcc_of_lt hd]

/-- The instructions that make no transfer and scan nothing take one cycle, the atomic one. -/
theorem beginCycle_of_one_cycle (h : Ready s) (hout : fetch s ≠ .output) (hin : fetch s ≠ .input)
    (hopen : fetch s ≠ .loopOpen) (hclose : fetch s ≠ .loopClose) : beginCycle s = exec (fetch s) s := by
  unfold fetch at *
  rw [beginCycle, if_neg (Nat.not_le.2 h.in_program)]
  split <;> simp_all only [ne_eq, not_true_eq_false]

/-! #### The waits -/

/-- The last edge of a transfer: the one answered in WAIT_OUT. -/
theorem returnsIn_of_waitOut (hrun : s.runState = .running) (hphase : s.phase = .exec) :
    ReturnsIn (Pins.answering r o) 1 { s with phase := .waitOut } (finishOutput o (record (.out s.obuf o) s)) := by
  have hedge := clockEdge_of_waitOut (r := r) (o := o) (s := { s with phase := .waitOut }) hrun rfl
  have hend : acceptOutput o { s with phase := .waitOut } = finishOutput o (record (.out s.obuf o) s) :=
    congrArg (finishOutput o) (withPhase_exec (s := record (.out s.obuf o) s) hphase)
  rw [hend] at hedge
  refine .last hedge ?_
  cases o with
  | ok => exact hphase
  | err => rfl

theorem acceptInput_of_value {v : Byte} (hd : s.dp < s.cfg.tapeCap) (hv : inValue s.cfg r = some v) :
    acceptInput r s =
      .next { record (.inp r) s with tape := tapeWrite s.tape s.dp v, obuf := v, phase := .waitOut } := by
  simp only [acceptInput, hv]
  exact storeAcc_of_lt (s := record (.inp r) s) hd v _

/-! #### The whole of each instruction -/

section
variable {qi : List InResp} {qo : List OutResp} (h : Ready s) (hd : s.dp < s.cfg.tapeCap)
include h hd

theorem refines_of_one_cycle (hbegin : beginCycle s = exec (fetch s) s) : Refines r o s := by
  obtain ⟨t, ht⟩ := exists_exec_eq_next (fetch s) hd
  have hstep : step s = .next t := (step_of_ready h).trans ht
  have hedge : clockEdge (Pins.answering r o) s = .next t := ((clockEdge_of_ready h).trans hbegin).trans ht
  have hphase : t.phase = .exec := (Executes.of_exec ht).phase_eq_exec h.running h.boundary
  exact ⟨1, t, t, by omega, hstep, .last hedge hphase, rfl⟩

/-- `.` takes the edge that begins the wait, and the one that ends it. -/
theorem refines_of_output (hfetch : fetch s = .output) (hqo : s.outQ = o :: qo) : Refines r o s := by
  have hstep : step s = .next (finishOutput o (outTransfer (s.cell s.dp) o s)) := by
    rw [step_of_ready h, hfetch]
    exact execOutput_of_answer hd hqo
  have hwait := (clockEdge_of_ready (r := r) (o := o) h).trans (beginCycle_of_output h hd hfetch)
  have hend := returnsIn_of_waitOut (r := r) (o := o) (s := { s with obuf := s.cell s.dp }) h.running h.boundary
  refine ⟨2, _, _, by omega, hstep, .cons hwait nofun hend, ?_⟩
  cases o <;> rfl

/-- `,` takes the edge that begins its wait, the one of its input transfer, and where that did not fail the echo's. -/
theorem refines_of_input (hfetch : fetch s = .input) (hqi : s.inQ = r :: qi) (hqo : s.outQ = o :: qo) :
    Refines r o s := by
  have hin := h.in_program
  have hwait := (clockEdge_of_ready (r := r) (o := o) h).trans (beginCycle_of_input h hfetch)
  have haccept := clockEdge_of_waitIn (r := r) (o := o) (s := { s with phase := .waitIn }) h.running rfl
  cases hv : inValue s.cfg r with
  | none =>
    obtain rfl := inValue_eq_none.1 hv
    have hstep := step_of_ready h
    rw [hfetch, exec_input_of_err hqi] at hstep
    exact ⟨2, _, _, by omega, hstep, .cons hwait nofun (.last haccept rfl), rfl⟩
  | some v =>
    have hstep := step_of_ready h
    rw [hfetch, exec_input_of_answers hd hqi hqo hv] at hstep
    rw [acceptInput_of_value (s := { s with phase := .waitIn }) hd hv] at haccept
    have hend := returnsIn_of_waitOut (r := r) (o := o)
      (s := { record (.inp r) s with tape := tapeWrite s.tape s.dp v, obuf := v }) h.running h.boundary
    refine ⟨3, _, _, by omega, hstep, .cons hwait nofun (.cons haccept nofun hend), ?_⟩
    cases o <;> simp [State.echoed, record, advance, raiseFault, State.withHost]

/-- A taken `[` takes the edge that begins its scan, and those of the scan. -/
theorem refines_of_loopOpen (hfetch : fetch s = .loopOpen) : Refines r o s := by
  have hin := h.in_program
  have hstep := step_of_ready h
  have hedge := (clockEdge_of_ready (r := r) (o := o) h).trans (beginCycle_of_loopOpen h hd hfetch)
  rw [hfetch] at hstep
  by_cases hcell : s.cell s.dp = 0
  · rw [exec_loopOpen_of_zero hd hcell] at hstep
    rw [if_pos (aluZero_iff.2 hcell)] at hedge
    obtain ⟨n, hn, hscan⟩ := returnsIn_of_beginForward (p := Pins.answering r o) rfl h
    exact ⟨n + 1, _, _, by omega, hstep, .cons hedge nofun hscan, rfl⟩
  · rw [exec_loopOpen_of_ne_zero hd hcell] at hstep
    rw [if_neg (mt aluZero_iff.1 hcell)] at hedge
    exact ⟨1, _, _, by omega, hstep, .last hedge h.boundary, rfl⟩

/-- A taken `]` likewise; at index 0 its first edge is the fault. -/
theorem refines_of_loopClose (hfetch : fetch s = .loopClose) : Refines r o s := by
  have hin := h.in_program
  have hstep := step_of_ready h
  have hedge := (clockEdge_of_ready (r := r) (o := o) h).trans (beginCycle_of_loopClose h hd hfetch)
  rw [hfetch] at hstep
  by_cases hcell : s.cell s.dp = 0
  · rw [exec_loopClose_of_zero hd hcell] at hstep
    rw [if_pos (aluZero_iff.2 hcell)] at hedge
    exact ⟨1, _, _, by omega, hstep, .last hedge h.boundary, rfl⟩
  · rw [exec_loopClose_of_ne_zero hd hcell] at hstep
    rw [if_neg (mt aluZero_iff.1 hcell)] at hedge
    by_cases hip : s.ip = 0
    · rw [backwardScan, if_pos hip] at hstep
      rw [beginBackward, if_pos hip] at hedge
      exact ⟨1, _, _, by omega, hstep, .last hedge rfl, rfl⟩
    · have hphase : (beginBackward s).phase ≠ .exec := by simp [beginBackward, hip]
      obtain ⟨n, hn, hscan⟩ := returnsIn_of_beginBackward (p := Pins.answering r o) rfl h hip
      exact ⟨n + 1, _, _, by omega, hstep, .cons hedge hphase hscan, rfl⟩

end

end

/-- Every instruction at a step boundary inside the program, answered by the host. -/
theorem refines_of_ready {s : State} {r : InResp} {o : OutResp} {qi : List InResp} {qo : List OutResp} (h : Ready s)
    (hd : s.dp < s.cfg.tapeCap) (hqi : s.inQ = r :: qi) (hqo : s.outQ = o :: qo) : Refines r o s := by
  cases hfetch : fetch s with
  | output => exact refines_of_output h hd hfetch hqo
  | input => exact refines_of_input h hd hfetch hqi hqo
  | loopOpen => exact refines_of_loopOpen h hd hfetch
  | loopClose => exact refines_of_loopClose h hd hfetch
  | ptrInc | ptrDec | cellInc | cellDec | nop =>
    refine refines_of_one_cycle h hd (beginCycle_of_one_cycle h ?_ ?_ ?_ ?_) <;> simp [hfetch]

/-- Settles O47: each instruction's edges are those of its waits or of its scan, and end where the atomic step does. -/
theorem multiCycleBuildRefinesTheAtomicStep : Obligations.MultiCycleBuildRefinesTheAtomicStep := by
  intro s r o qi qo hinv hready hqi hqo
  obtain ⟨n, t, u, hn, hstep, hreturns, hsame⟩ := refines_of_ready hready hinv.dp_lt hqi hqo
  exact ⟨n, t, u, hreturns.pos, hn, hstep, hreturns.clockRun_eq, hreturns.phase_eq_exec, hsame,
    fun _ => hreturns.exists_clockRun_of_lt⟩

end Sys2Proof.Machine
